-- ==== Sys2Proof/Word.lean ====
section
/-! DEFINITION. The three widths of the engine (spec/00_scope.md R6): a byte of BUF, a 32-bit register, bus word or
half, and a 64-bit block or trace entry. Values are unsigned (R7). -/

namespace Sys2Proof

/-- A byte of BUF: bit 7 is the most significant and comes first in a bit string (R7, R8). -/
abbrev Byte := BitVec 8

/-- A register, a bus word, a half or a round key: REG_BITS = HALF_BITS = RK_BITS = 32 (R6). -/
abbrev Word := BitVec 32

/-- A block or a trace entry: BLOCK_BITS = 64 (R6). -/
abbrev Block := BitVec 64

end Sys2Proof
end

