-- ==== Sys2Proof/Syntax.lean ====
section
/-! DEFINITION. The commands: one constructor of `Instr` for each row of spec/opcode_table.json (spec/30_encoding.md
R82), and the three fields of a command word (R81). A command word carries no operand other than T (R83). -/

namespace Sys2Proof

/-- A command (R82). `t` is the trace flag, which only ENCB and DECB have. -/
inductive Instr where
  | nop
  | encb (t : Bool)
  | decb (t : Bool)
  | pad
  | unpad
  | encm
  | decm
  | enc
  | dec
deriving DecidableEq, Repr

/-- The fields of a command word (R81), before anything is known of them. -/
structure CmdFields where
  /-- OPC, bits [3:0]. -/
  opc : BitVec 4
  /-- T, bit [4]. -/
  t : Bool
  /-- RSV, bits [31:5]. -/
  rsv : BitVec 27
deriving DecidableEq, Repr

end Sys2Proof
end

