-- ==== Sys2Proof/Decode.lean ====
section
/-! DEFINITION. The decoder, total on every 32-bit word (spec/30_encoding.md R80, R81, R84), which rejects by name, and
the encoder written from the same table (R82). -/

namespace Sys2Proof

/-- Why a word is Illegal (R84). Every one of them completes with ILLCMD (spec/60_exceptions.md R200). -/
inductive DecodeError where
  /-- RSV, bits [31:5], is not 0. -/
  | reservedBits
  /-- OPC is one of 0x9..0xF. -/
  | reservedOpcode
  /-- T = 1 with an OPC other than 1 and 2. -/
  | traceNotAllowed
deriving DecidableEq, Repr

/-- The fields of a command word: OPC = [3:0], T = [4], RSV = [31:5] (R81). -/
def fieldsOf (c : Word) : CmdFields where
  opc := c.extractLsb' 0 4
  t := c.getLsbD 4
  rsv := c.extractLsb' 5 27

/-- The opcode map of R82, with the T column: what OPC and T say once RSV is known to be 0. -/
def instrOf (opc : Nat) (t : Bool) : Except DecodeError Instr :=
  match opc, t with
  | 0, false => .ok .nop
  | 1, t => .ok (.encb t)
  | 2, t => .ok (.decb t)
  | 3, false => .ok .pad
  | 4, false => .ok .unpad
  | 5, false => .ok .encm
  | 6, false => .ok .decm
  | 7, false => .ok .enc
  | 8, false => .ok .dec
  | n, _ => if 9 ≤ n then .error .reservedOpcode else .error .traceNotAllowed

/-- Decode(c) of R84. -/
def decode (c : Word) : Except DecodeError Instr :=
  let f := fieldsOf c
  if f.rsv = 0 then instrOf f.opc.toNat f.t else .error .reservedBits

/-- The instruction that the decoder reads from a word of the opcode table, whose bits from `nbits` up are 0. -/
def decodeTableWord (nbits w : Nat) : Option Instr :=
  (decode (BitVec.ofNat 32 (w % 2 ^ nbits))).toOption

/-! ## The encoder -/

/-- The word that has these fields: RSV, T and OPC from the most significant bit down (R81). -/
def packFields (f : CmdFields) : Word := f.rsv ++ BitVec.ofBool f.t ++ f.opc

/-- OPC and T of a command (R82). -/
def Instr.fields : Instr → CmdFields
  | .nop => { opc := 0, t := false, rsv := 0 }
  | .encb t => { opc := 1, t := t, rsv := 0 }
  | .decb t => { opc := 2, t := t, rsv := 0 }
  | .pad => { opc := 3, t := false, rsv := 0 }
  | .unpad => { opc := 4, t := false, rsv := 0 }
  | .encm => { opc := 5, t := false, rsv := 0 }
  | .decm => { opc := 6, t := false, rsv := 0 }
  | .enc => { opc := 7, t := false, rsv := 0 }
  | .dec => { opc := 8, t := false, rsv := 0 }

/-- The command word of a command. -/
def encode (i : Instr) : Word := packFields i.fields

end Sys2Proof
end

