-- ==== Sys2Proof/Config.lean ====
section
/-! DEFINITION. What an implementation fixes (the two sizes of spec/00_scope.md R6 that R6 lets it choose) and the
free values (what spec/20_memory.md R66 leaves unspecified). -/

namespace Sys2Proof

/-- The implementation's parameters. They are what CAPS reports (R24), so State carries them and no step changes them;
every statement is over all legal values and only `State.reset` uses the reference ones. -/
structure Config where
  /-- KEY_MAX_BITS. -/
  keyMaxBits : Nat
  /-- BUF_BYTES. -/
  bufBytes : Nat
deriving DecidableEq, Repr

namespace Config

/-- The constraints of R6 on the two parameters. -/
abbrev Legal (c : Config) : Prop :=
  c.keyMaxBits % 32 = 0 ∧ 32 ≤ c.keyMaxBits ∧ c.keyMaxBits ≤ 512 ∧
  c.bufBytes % 8 = 0 ∧ 8 ≤ c.bufBytes ∧ c.bufBytes ≤ 8192

/-- The reference values of R6. -/
def reference : Config := { keyMaxBits := 256, bufBytes := 4096 }

/-- KEY_WORDS = KEY_MAX_BITS / 32 (R6). -/
def keyWords (c : Config) : Nat := c.keyMaxBits / 32

/-- TRACE_DEPTH = ROUNDS_MAX = 255 (R6). -/
abbrev traceDepth : Nat := 255

/-- APERTURE, in bytes of offset (R6). -/
abbrev aperture : Nat := 0x4000

/-- FREE VALUE. The word that the n-th unspecified read answers while the engine is busy (R66, U-4; log entry 1).
It has no body: a statement holds whatever it is. -/
opaque freeRead : Nat → Word

/-- FREE VALUE. Bit 4 (PADV) of a STATUS read made while busy, for the n-th unspecified read (R66, U-4; log entry 1). -/
opaque freePadv : Nat → Bool

end Config

end Sys2Proof
end

