-- ==== Sys2Proof/Machine/State.lean ====
section
/-! DEFINITION. The state of the FBE (spec/10_state.md R20), the reasons a step can stop, and the state after reset
(R43). Registers whose reserved bits read 0 and ignore writes (R25, R28, R35 to R38) are held as their defined fields.
ID is a constant, CAPS is a view of `params`, CMD reads 0 and `irq` is a function of STATUS and IRQEN: none of the four
is stored. -/

namespace Sys2Proof.Machine

/-- CFG.VAR (R25). -/
inductive Variant where
  /-- 0: the round function returns the round key. -/
  | identity
  /-- 1: the round key is XORed with a half. -/
  | xorHalf
deriving DecidableEq, Repr

/-- CFG.OPSEL (R25): the half that XorHalf combines with the round key. -/
inductive HalfSel where
  /-- 0. -/
  | right
  /-- 1. -/
  | left
deriving DecidableEq, Repr

/-- The defined fields of CFG (R25). -/
structure CfgReg where
  rounds : BitVec 8
  var : Variant
  opsel : HalfSel
deriving DecidableEq, Repr

/-- STATUS.ERRCODE (spec/60_exceptions.md R203). Codes 6 to 15 are never produced (RS-4), so they have no name. -/
inductive ErrCode where
  | none
  | illCmd
  | keyEmpty
  | keyRange
  | mlenRange
  | overflow
deriving DecidableEq, Repr

/-- The defined fields of STATUS (R28). -/
structure Status where
  busy : Bool
  done : Bool
  err : Bool
  wign : Bool
  padv : Bool
  errcode : ErrCode
deriving DecidableEq, Repr

/-- The defined fields of IRQEN (R35). -/
structure IrqEn where
  doneie : Bool
  errie : Bool
deriving DecidableEq, Repr

/-- The direction of an iteration (spec/41_round_function.md R126); it is chosen by the opcode, not by CFG. -/
inductive Dir where
  | enc
  | dec
deriving DecidableEq, Repr

/-- The buffer BUF as (address, byte) pairs; see `Memory.wf` for its canonical form. -/
structure Memory where
  cells : List Host.Cell
deriving DecidableEq, Repr

/-- What a byte of BUF reads as when it is not listed. DESIGN CHOICE, log entry 2: the spec leaves BUF after reset
unspecified (R43, U-1). -/
def Memory.unwritten : Byte := 0

/-- The canonical form: addresses strictly rise, and no entry holds what an unlisted address reads as. -/
abbrev Memory.wf (m : Memory) : Prop :=
  m.cells.Pairwise (fun x y => x.1 < y.1) ∧ ∀ c ∈ m.cells, c.2 ≠ Memory.unwritten

/-- What reset leaves unspecified (R43): the environment supplies it with the reset event, and a statement holds for
every value of it (log entry 3). -/
structure Unspecified where
  buf : List Host.Cell
  trace : List Block
  curcmd : Word
deriving DecidableEq, Repr

/-- What moves next. The host's transactions are R61's; `engine` gives the engine its turn (its step `Complete` when
STATUS.BUSY = 1, spec/60_exceptions.md R201, and nothing otherwise); `reset` asserts reset (spec/70_reset_and_hazards.md
R230). -/
inductive Event where
  | read (off : Nat)
  | write (off : Nat) (v : Word)
  | engine
  | reset (u : Unspecified)
deriving DecidableEq, Repr

/-- A stop that the spec does not describe. No step of a state that meets `State.Inv` (Safety.lean) faults. -/
inductive Fault where
  /-- Raised by the shared `runCommand` (Machine/Ops.lean) when a buffer command would touch BUF bytes below `reach`
  and BUF_BYTES is smaller: MemRead and MemWrite require a + n <= BUF_BYTES (R12), which every rule ensures by its
  checks when BUF_BYTES is legal (R6). SAFE: the model stops where the spec gives no meaning (log entry 4). -/
  | bufferRange (reach : Nat)
deriving DecidableEq, Repr

/-- A refusal by name. -/
inductive Refusal where
  /-- Raised by an arm of `exec` for a command that has no meaning yet (there is none). SAFE. -/
  | notModelled (mnemonic : String)
  /-- Raised by `takeEvent` (Machine/Engine.lean) for a host transaction at an offset at or above APERTURE: it 'is not
  decoded by the FBE (whatever the platform bus does with it is outside this spec)' (R61), 'refuse (outside the model)'
  (spec/93_implementation_defined.md RS-6). SAFE (log entry 5). -/
  | outsideAperture (off : Nat)
deriving DecidableEq, Repr

structure State where
  /-- KEY_MAX_BITS and BUF_BYTES (R6), which CAPS reports (R24). -/
  params : Config
  /-- CFG (R25). -/
  cfg : CfgReg
  /-- STATUS (R28). -/
  status : Status
  /-- IRQEN (R35). -/
  irqen : IrqEn
  /-- KEYLEN (R36). -/
  keylen : BitVec 10
  /-- MLEN (R37). -/
  mlen : BitVec 16
  /-- TRCNT (R38). -/
  trcnt : BitVec 8
  /-- BLK0 (R39). -/
  blk0 : Word
  /-- BLK1 (R39). -/
  blk1 : Word
  /-- KEY[0..KEY_WORDS-1] (R40). -/
  key : List Word
  /-- TRACE[0..TRACE_DEPTH-1] (R41). -/
  trace : List Block
  /-- BUF[0..BUF_BYTES-1] (spec/20_memory.md R60). -/
  buf : Memory
  /-- CURCMD, hidden, meaningful only while BUSY = 1 (R20). -/
  curcmd : Word
  /-- The model's own: the events still to come, in order. It decides the interleaving of host and engine (R201). -/
  inputs : List Event
  /-- The model's own: the word that the bus answered in the last step, if that step was a Read (R181). -/
  busOut : Option Word
  /-- The model's own: how many unspecified reads there have been, the argument of the free values of R66. -/
  draws : Nat
deriving DecidableEq, Repr

/-- The state right after reset (R43), with the reference parameters (R6). The values of `trace`, `buf` and `curcmd`
are DESIGN CHOICES (log entries 2, 6 and 7): R43 calls them unspecified. -/
def State.reset : State where
  params := Config.reference
  cfg := { rounds := 0, var := .identity, opsel := .right }
  status := { busy := false, done := false, err := false, wign := false, padv := false, errcode := .none }
  irqen := { doneie := false, errie := false }
  keylen := 0
  mlen := 0
  trcnt := 0
  blk0 := 0
  blk1 := 0
  key := List.replicate Config.reference.keyWords 0
  trace := List.replicate Config.traceDepth 0
  buf := { cells := [] }
  curcmd := 0
  inputs := []
  busOut := none
  draws := 0

end Sys2Proof.Machine
end

