-- ==== Sys2Proof/Machine/Flags.lean ====
section
/-! DEFINITION. The only flags of the engine, the STATUS bits (spec/10_state.md R28, R42): how STATUS reads, what
acceptance, completion, a STATUS write and an ignored write do to it, and the interrupt output. -/

namespace Sys2Proof.Machine

/-- The 4-bit code of an error (spec/60_exceptions.md R203). -/
def ErrCode.toBits : ErrCode → BitVec 4
  | .none => 0
  | .illCmd => 1
  | .keyEmpty => 2
  | .keyRange => 3
  | .mlenRange => 4
  | .overflow => 5

/-- The word a read of STATUS gives: reserved bits read 0 (R28). -/
def Status.toWord (st : Status) : Word :=
  (0#20) ++ st.errcode.toBits ++ (0#3) ++ BitVec.ofBool st.padv ++ BitVec.ofBool st.wign ++
    BitVec.ofBool st.err ++ BitVec.ofBool st.done ++ BitVec.ofBool st.busy

/-- Acceptance of a command (R27): WIGN and PADV stay (R31, R33). -/
def Status.accepted (st : Status) : Status :=
  { st with busy := true, done := false, err := false, errcode := .none }

/-- Completion without error (spec/60_exceptions.md R201). -/
def Status.completed (st : Status) : Status :=
  { st with busy := false, done := true }

/-- Completion with an error (spec/60_exceptions.md R201). -/
def Status.failed (st : Status) (code : ErrCode) : Status :=
  { st with busy := false, err := true, errcode := code }

/-- A host write of `v` to STATUS: write one to clear (R32). -/
def Status.clear (st : Status) (v : Word) : Status where
  busy := st.busy
  done := if v.getLsbD 1 then false else st.done
  err := if v.getLsbD 2 then false else st.err
  wign := if v.getLsbD 3 then false else st.wign
  padv := st.padv
  errcode := if v.getLsbD 2 then .none else st.errcode

/-- A write ignored because the engine is busy sets the sticky WIGN and nothing else (R31, spec/60_exceptions.md
R208). -/
def Status.ignored (st : Status) : Status := { st with wign := true }

/-- STATUS after reset is 0 (R43). -/
def Status.idle : Status :=
  { busy := false, done := false, err := false, wign := false, padv := false, errcode := .none }

/-- The interrupt output (spec/60_exceptions.md R209). -/
def State.irq (s : State) : Bool :=
  (s.status.done && s.irqen.doneie) || (s.status.err && s.irqen.errie)

end Sys2Proof.Machine
end

