-- ==== Sys2Proof/Machine/Operands.lean ====
section
/-! DEFINITION. The operands of the commands, all of which come from registers (spec/30_encoding.md R83): how register
fields are packed into bus words (spec/10_state.md R23 to R38), the two halves of a block (spec/00_scope.md R9), bit
strings (R8), byte packing (spec/20_memory.md R63) and the lengths of R10. -/

namespace Sys2Proof.Machine

/-! ## Register fields -/

/-- ID reads 0x46424531 at all times (R23). -/
def idWord : Word := 0x46424531#32

/-- CAPS: BUF_BYTES in [31:16], 0 in [15:10], KEY_MAX_BITS in [9:0] (R24). -/
def capsWord (c : Config) : Word :=
  BitVec.ofNat 16 c.bufBytes ++ (0#6) ++ BitVec.ofNat 10 c.keyMaxBits

/-- CFG.VAR as a bit (R25). -/
def Variant.toBit : Variant → Bool
  | .identity => false
  | .xorHalf => true

/-- CFG.VAR from a bit: every value is legal (R26). -/
def Variant.ofBit : Bool → Variant
  | false => .identity
  | true => .xorHalf

/-- CFG.OPSEL as a bit (R25). -/
def HalfSel.toBit : HalfSel → Bool
  | .right => false
  | .left => true

/-- CFG.OPSEL from a bit: every value is legal (R26). -/
def HalfSel.ofBit : Bool → HalfSel
  | false => .right
  | true => .left

/-- The word a read of CFG gives: [7:0] ROUNDS, [8] VAR, [9] OPSEL, the rest 0 (R25). -/
def CfgReg.toWord (c : CfgReg) : Word :=
  (0#22) ++ BitVec.ofBool c.opsel.toBit ++ BitVec.ofBool c.var.toBit ++ c.rounds

/-- CFG after a write of `v`: reserved bits are ignored (R25). -/
def CfgReg.ofWord (v : Word) : CfgReg where
  rounds := v.extractLsb' 0 8
  var := Variant.ofBit (v.getLsbD 8)
  opsel := HalfSel.ofBit (v.getLsbD 9)

/-- The word a read of IRQEN gives: [0] DONEIE, [1] ERRIE (R35). -/
def IrqEn.toWord (e : IrqEn) : Word :=
  (0#30) ++ BitVec.ofBool e.errie ++ BitVec.ofBool e.doneie

/-- IRQEN after a write of `v` (R35). -/
def IrqEn.ofWord (v : Word) : IrqEn where
  doneie := v.getLsbD 0
  errie := v.getLsbD 1

/-- KEYLEN after a write of `v`: bits [9:0] (R36). -/
def keylenOfWord (v : Word) : BitVec 10 := v.extractLsb' 0 10

/-- MLEN after a write of `v`: bits [15:0] (R37). -/
def mlenOfWord (v : Word) : BitVec 16 := v.extractLsb' 0 16

/-! ## Blocks, bit strings and bytes -/

/-- The Left half of a block: bits [63:32] (R126). -/
def leftHalf (b : Block) : Word := b.extractLsb' 32 32

/-- The Right half of a block: bits [31:0] (R126). -/
def rightHalf (b : Block) : Word := b.extractLsb' 0 32

/-- `a ‖ b`: `a` in the more significant bits (R9). -/
def joinHalves (a b : Word) : Block := a ++ b

/-- The block register BLK = BLK0 ‖ BLK1 (R39). -/
def State.blk (s : State) : Block := joinHalves s.blk0 s.blk1

/-- The value whose bit string is f 0, f 1, …, f (n-1): index 0 is the most significant bit (R8). -/
def bitString (f : Nat → Bool) : (n : Nat) → BitVec n
  | 0 => 0#0
  | n + 1 => (bitString f n).concat (f n)

/-- KeyBit(j) := KEY[j div 32][31 - (j mod 32)] (spec/41_round_function.md R120). -/
def keyBit (key : List Word) (j : Nat) : Bool :=
  (key.getD (j / 32) 0).getLsbD (31 - j % 32)

/-- The bytes of an n-byte value, the most significant first: byte k is v[8(n-k)-1 : 8(n-k)-8] (R12, R63). -/
def bytesOf (n : Nat) (v : BitVec (8 * n)) : List Byte :=
  (List.range n).map fun k => v.extractLsb' (8 * (n - k) - 8) 8

/-! ## Lengths -/

/-- ceil8(n) = 8 * ((n + 7) div 8) (R10). -/
def ceil8 (n : Nat) : Nat := 8 * ((n + 7) / 8)

/-- floor8(n) = 8 * (n div 8) (R10). -/
def floor8 (n : Nat) : Nat := 8 * (n / 8)

end Sys2Proof.Machine
end

