-- ==== Sys2Proof/Machine/Ops.lean ====
section
/-! DEFINITION. The operations every command and transaction is made of: the buffer (spec/00_scope.md R12), acceptance
(spec/10_state.md R27), completion with and without an error (spec/60_exceptions.md R201), and the checks of R203. The
engine has no traps (R205): a completion with an error takes the place of an exception, and there is no return (R206). -/

namespace Sys2Proof.Machine

/-! ## The buffer -/

/-- One byte of a canonical list: unlisted addresses read as `Memory.unwritten`. -/
def readCell : List Host.Cell → Nat → Byte
  | [], _ => Memory.unwritten
  | (k, v) :: rest, a => if a < k then Memory.unwritten else if a = k then v else readCell rest a

/-- Put an entry in front, unless it holds what an unlisted address reads as. -/
def consCell (a : Nat) (v : Byte) (rest : List Host.Cell) : List Host.Cell :=
  if v = Memory.unwritten then rest else (a, v) :: rest

/-- Write one byte into a canonical list. -/
def writeCell : List Host.Cell → Nat → Byte → List Host.Cell
  | [], a, v => consCell a v []
  | (k, w) :: rest, a, v =>
    if a < k then consCell a v ((k, w) :: rest)
    else if a = k then consCell a v rest
    else (k, w) :: writeCell rest a v

/-- BUF[a]. -/
def Memory.read (m : Memory) (a : Nat) : Byte := readCell m.cells a

/-- BUF[a] <- v. -/
def Memory.write (m : Memory) (a : Nat) (v : Byte) : Memory := { cells := writeCell m.cells a v }

/-- The bytes BUF[a], …, BUF[a+n-1]. -/
def Memory.readBytes (m : Memory) (a n : Nat) : List Byte :=
  (List.range n).map fun k => m.read (a + k)

/-- BUF[a+k] <- byte k of the list. -/
def Memory.writeBytes (m : Memory) (a : Nat) : List Byte → Memory
  | [] => m
  | b :: bs => (m.write a b).writeBytes (a + 1) bs

/-- MemRead(a, n): BUF[a] is the most significant byte (R12). -/
def Memory.memRead (m : Memory) (a : Nat) : (n : Nat) → BitVec (8 * n)
  | 0 => 0#0
  | n + 1 => m.memRead a n ++ m.read (a + n)

/-- MemWrite(a, n, v): the most significant byte goes to the lowest address (R12). -/
def Memory.memWrite (m : Memory) (a n : Nat) (v : BitVec (8 * n)) : Memory :=
  m.writeBytes a (bytesOf n v)

/-- The buffer that holds the given bytes, in order, at addresses below `size`, and is unwritten elsewhere. -/
def Memory.ofCells (size : Nat) (cells : List Host.Cell) : Memory :=
  cells.foldl (fun m c => if c.1 < size then m.write c.1 c.2 else m) { cells := [] }

/-! ## Acceptance and completion -/

/-- Acceptance of the command word `c` (R27). -/
def State.accept (s : State) (c : Word) : State :=
  { s with curcmd := c, status := s.status.accepted }

/-- Completion without error: BUSY <- 0, DONE <- 1 (R201). -/
def State.complete (s : State) : State := { s with status := s.status.completed }

/-- Completion with an error, the engine's only form of exception: BUSY <- 0, ERR <- 1, ERRCODE <- code, and no other
state change (R13, R201, R205). -/
def State.completeError (s : State) (code : ErrCode) : State :=
  { s with status := s.status.failed code }

/-! ## The checks of R203 -/

/-- KEYEMPTY, then KEYRANGE (R203, R204). -/
def State.keyError (s : State) : Option ErrCode :=
  if s.keylen = 0 then some .keyEmpty
  else if s.params.keyMaxBits < s.keylen.toNat then some .keyRange
  else none

/-- MLENRANGE (R203). -/
def State.mlenError (s : State) : Option ErrCode :=
  if s.params.bufBytes < s.mlen.toNat then some .mlenRange else none

/-- PadLen(n) = 8 - (n mod 8), in 1..8 (spec/40_padding.md R100). -/
def padLen (n : Nat) : Nat := 8 - n % 8

/-- OVERFLOW (R203). -/
def State.overflowError (s : State) : Option ErrCode :=
  if s.params.bufBytes < s.mlen.toNat + padLen s.mlen.toNat then some .overflow else none

/-- Run a command: its error check first (R13), then its effect, then completion (R201). `reach` is the end of the BUF
bytes that the effect touches, 0 where it touches none. -/
def runCommand (error : Option ErrCode) (reach : Nat) (effect : State → State) (s : State) :
    Host.Outcome State Fault Refusal :=
  match error with
  | some code => .next (s.completeError code)
  | none => if s.params.bufBytes < reach then .fault (.bufferRange reach) else .next (effect s).complete

end Sys2Proof.Machine
end

