-- ==== Sys2Proof/Machine/Bus.lean ====
section
/-! DEFINITION. The host's side of the aperture: the register map (spec/10_state.md R22), Read and Write
(spec/44_control.md R181, R182) with their busy rules (spec/20_memory.md R65, R66), and the reset input
(spec/70_reset_and_hazards.md R230). -/

namespace Sys2Proof.Machine

/-- What a word of the aperture is (R22). -/
inductive Target where
  | id
  | caps
  | cfg
  | cmd
  | status
  | irqen
  | keylen
  | mlen
  | trcnt
  | blk0
  | blk1
  /-- KEY[w]. -/
  | key (w : Nat)
  /-- TRACE[j][63:32]. -/
  | traceHi (j : Nat)
  /-- TRACE[j][31:0]. -/
  | traceLo (j : Nat)
  /-- BUF[a..a+3]. -/
  | buf (a : Nat)
  | reserved
deriving DecidableEq, Repr

/-- The byte offset of a word of the aperture (R22); a reserved word is given no offset of its own. -/
def Target.offset : Target → Nat
  | .id => 0x000
  | .caps => 0x004
  | .cfg => 0x008
  | .cmd => 0x00C
  | .status => 0x010
  | .irqen => 0x014
  | .keylen => 0x018
  | .mlen => 0x01C
  | .trcnt => 0x020
  | .blk0 => 0x028
  | .blk1 => 0x02C
  | .key w => 0x100 + 4 * w
  | .traceHi j => 0x1000 + 8 * j
  | .traceLo j => 0x1004 + 8 * j
  | .buf a => 0x2000 + a
  | .reserved => 0x024

/-- The word a transaction at `off` acts on: bits [1:0] of the offset are not decoded (spec/20_memory.md R61). -/
def wordOffset (off : Nat) : Nat := off - off % 4

/-- The registers below 0x100 (R22). -/
def lowTarget (w : Nat) : Target :=
  match w with
  | 0x00 => .id
  | 0x04 => .caps
  | 0x08 => .cfg
  | 0x0C => .cmd
  | 0x10 => .status
  | 0x14 => .irqen
  | 0x18 => .keylen
  | 0x1C => .mlen
  | 0x20 => .trcnt
  | 0x28 => .blk0
  | 0x2C => .blk1
  | _ => .reserved

/-- The register map (R22): what the word at offset `w`, a multiple of 4, is. -/
def targetAt (c : Config) (w : Nat) : Target :=
  if w < 0x100 then lowTarget w
  else if w < 0x1000 then
    if w < 0x100 + 4 * c.keyWords then .key ((w - 0x100) / 4) else .reserved
  else if w < 0x2000 then
    if w < 0x1000 + 8 * Config.traceDepth then
      if w % 8 = 0 then .traceHi ((w - 0x1000) / 8) else .traceLo ((w - 0x1000) / 8)
    else .reserved
  else if w < 0x2000 + c.bufBytes then .buf (w - 0x2000) else .reserved

/-- The value a read gives while the engine is idle, with reserved bits 0 (R181). -/
def State.readTarget (s : State) : Target → Word
  | .id => idWord
  | .caps => capsWord s.params
  | .cfg => s.cfg.toWord
  | .cmd => 0
  | .status => s.status.toWord
  | .irqen => s.irqen.toWord
  | .keylen => s.keylen.setWidth 32
  | .mlen => s.mlen.setWidth 32
  | .trcnt => s.trcnt.setWidth 32
  | .blk0 => s.blk0
  | .blk1 => s.blk1
  | .key w => s.key.getD w 0
  | .traceHi j => leftHalf (s.trace.getD j 0)
  | .traceLo j => rightHalf (s.trace.getD j 0)
  | .buf a => s.buf.memRead a 4
  | .reserved => 0

/-- The words whose reads are unspecified while busy (R66). -/
def Target.isOutput : Target → Bool
  | .blk0 | .blk1 | .mlen | .trcnt | .traceHi _ | .traceLo _ | .buf _ => true
  | .id | .caps | .cfg | .cmd | .status | .irqen | .keylen | .key _ | .reserved => false

/-- The words whose writes are ignored while busy (R65): the engine's inputs. -/
def Target.isInput : Target → Bool
  | .cfg | .cmd | .keylen | .mlen | .blk0 | .blk1 | .key _ | .buf _ => true
  | .id | .caps | .status | .irqen | .trcnt | .traceHi _ | .traceLo _ | .reserved => false

/-- The value a read gives while the engine is busy (R66): a free value for an output, and for STATUS the true bits
with a free PADV. -/
def State.readBusy (s : State) (t : Target) : Word :=
  if t.isOutput then Config.freeRead s.draws
  else if t = .status then ({ s.status with padv := Config.freePadv s.draws } : Status).toWord
  else s.readTarget t

/-- Read (R181): no side effect on any architectural state (R67). The answer stands in `busOut`, and a read that may
draw a free value moves on to the next one. -/
def State.hostRead (s : State) (off : Nat) : State :=
  let t := targetAt s.params (wordOffset off)
  if s.status.busy then { s with busOut := some (s.readBusy t), draws := s.draws + 1 }
  else { s with busOut := some (s.readTarget t) }

/-- A write that is carried out (R182). -/
def State.writeTarget (s : State) (t : Target) (v : Word) : State :=
  match t with
  | .cfg => { s with cfg := CfgReg.ofWord v }
  | .irqen => { s with irqen := IrqEn.ofWord v }
  | .keylen => { s with keylen := keylenOfWord v }
  | .mlen => { s with mlen := mlenOfWord v }
  | .blk0 => { s with blk0 := v }
  | .blk1 => { s with blk1 := v }
  | .key w => { s with key := s.key.set w v }
  | .buf a => { s with buf := s.buf.memWrite a 4 v }
  | .cmd => s.accept v
  | .status => { s with status := s.status.clear v }
  | .id | .caps | .trcnt | .traceHi _ | .traceLo _ | .reserved => s

/-- Write (R182): while busy a write to an input of the engine has no effect but WIGN (R65). -/
def State.hostWrite (s : State) (off : Nat) (v : Word) : State :=
  let t := targetAt s.params (wordOffset off)
  if s.status.busy && t.isInput then { s with status := s.status.ignored } else s.writeTarget t v

/-- A trace array of TRACE_DEPTH entries that begins with the given ones. -/
def traceOf (entries : List Block) : List Block :=
  entries.take Config.traceDepth ++ List.replicate (Config.traceDepth - entries.length) 0

/-- Reset (R230): every register is 0 but ID and CAPS (R43), and BUF, TRACE and CURCMD hold whatever the environment
gives them. A command in flight is abandoned (R231). The parameters and the model's own fields stay. -/
def State.assertReset (s : State) (u : Unspecified) : State :=
  { s with
    cfg := { rounds := 0, var := .identity, opsel := .right }
    status := Status.idle
    irqen := { doneie := false, errie := false }
    keylen := 0
    mlen := 0
    trcnt := 0
    blk0 := 0
    blk1 := 0
    key := List.replicate s.params.keyWords 0
    trace := traceOf u.trace
    buf := Memory.ofCells s.params.bufBytes u.buf
    curcmd := u.curcmd }

end Sys2Proof.Machine
end

