-- ==== Sys2Proof/Machine/Feistel.lean ====
section
/-! DEFINITION. The round key, the round function and the Feistel iteration (spec/41_round_function.md R121 to R126).
They read KEY, KEYLEN and CFG and write nothing. -/

namespace Sys2Proof.Machine

/-- RoundKey(r): bit-string position i of the window is key bit (r + i) mod L (R121). -/
def roundKey (key : List Word) (l r : Nat) : Word :=
  bitString (fun i => keyBit key ((r + i) % l)) 32

/-- F(r, Lh, Rh), with the round key given (R123). -/
def roundFunction (cfg : CfgReg) (k lh rh : Word) : Word :=
  match cfg.var with
  | .identity => k
  | .xorHalf =>
    match cfg.opsel with
    | .right => k ^^^ rh
    | .left => k ^^^ lh

/-- One round maps (Lh, Rh) to (Rh, Lh XOR F(r, Lh, Rh)) (R125). -/
def roundStep (cfg : CfgReg) (k : Word) (h : Word × Word) : Word × Word :=
  (h.2, h.1 ^^^ roundFunction cfg k h.1 h.2)

/-- The emitted block: the halves swapped once more, Rh ‖ Lh (R126). -/
def emit (h : Word × Word) : Block := joinHalves h.2 h.1

/-- The rounds with the given round keys, in order: the last halves, and the block emitted after each round (R126). -/
def runRounds (cfg : CfgReg) : List Word → Word × Word → (Word × Word) × List Block
  | [], h => (h, [])
  | k :: ks, h =>
    let h' := roundStep cfg k h
    let (last, trace) := runRounds cfg ks h'
    (last, emit h' :: trace)

/-- The round index of round i: i for encrypt, N - 1 - i for decrypt (R126). -/
def roundIndex (dir : Dir) (n i : Nat) : Nat :=
  match dir with
  | .enc => i
  | .dec => n - 1 - i

/-- The round keys in the order in which the rounds use them. -/
def roundKeys (rk : Nat → Word) (dir : Dir) (n : Nat) : List Word :=
  (List.range n).map fun i => rk (roundIndex dir n i)

/-- Feistel(b, dir, N) = (out, trace) (R126), with the round keys given as a function of the round index. -/
def feistel (cfg : CfgReg) (rk : Nat → Word) (b : Block) (dir : Dir) (n : Nat) : Block × List Block :=
  let (last, trace) := runRounds cfg (roundKeys rk dir n) (leftHalf b, rightHalf b)
  (emit last, trace)

/-- RoundKey(r) of the machine's key (R120, R121). -/
def State.roundKeyOf (s : State) (r : Nat) : Word := roundKey s.key s.keylen.toNat r

/-- Feistel(b, dir, CFG.ROUNDS) under the machine's key and configuration. -/
def State.feistelOf (s : State) (b : Block) (dir : Dir) : Block × List Block :=
  feistel s.cfg s.roundKeyOf b dir s.cfg.rounds.toNat

end Sys2Proof.Machine
end

