-- ==== Sys2Proof/Machine/Block.lean ====
section
/-! DEFINITION. The single-block commands ENCB and DECB with their traced forms (spec/42_block_commands.md R140 to
R145). -/

namespace Sys2Proof.Machine

/-- WriteTrace(tr, N): TRACE[0..N-1] <- tr, TRCNT <- N; later entries stay (R144). -/
def State.writeTrace (s : State) (tr : List Block) : State :=
  { s with trace := tr ++ s.trace.drop tr.length, trcnt := BitVec.ofNat 8 tr.length }

/-- The effect of a block command: BLK <- out, and with T = 1 the trace (R140, R141). -/
def State.blockCommand (dir : Dir) (t : Bool) (s : State) : State :=
  let (out, tr) := s.feistelOf s.blk dir
  let s' := { s with blk0 := leftHalf out, blk1 := rightHalf out }
  if t then s'.writeTrace tr else s'

/-- ENCB (R140): KEYEMPTY, then KEYRANGE. -/
def execEncb (t : Bool) (s : State) : Host.Outcome State Fault Refusal :=
  runCommand s.keyError 0 (State.blockCommand .enc t) s

/-- DECB (R141): KEYEMPTY, then KEYRANGE. -/
def execDecb (t : Bool) (s : State) : Host.Outcome State Fault Refusal :=
  runCommand s.keyError 0 (State.blockCommand .dec t) s

end Sys2Proof.Machine
end

