-- ==== Sys2Proof/Machine/Control.lean ====
section
/-! DEFINITION. NOP (spec/44_control.md R180), the only command with no data effect (R184). -/

namespace Sys2Proof.Machine

/-- NOP: tests nothing and never errors (spec/60_exceptions.md R203). -/
def execNop (s : State) : Host.Outcome State Fault Refusal :=
  runCommand none 0 id s

end Sys2Proof.Machine
end

