-- ==== Sys2Proof/Machine/Padding.lean ====
section
/-! DEFINITION. The padding functions on byte sequences (spec/40_padding.md R100 to R102) and the commands PAD and UNPAD
(R104 to R107). -/

namespace Sys2Proof.Machine

/-- The bytes that Pad appends to a message of n bytes: PadLen(n) of them, each of that value (R101). -/
def padBytes (n : Nat) : List Byte := List.replicate (padLen n) (BitVec.ofNat 8 (padLen n))

/-- Pad(x) (R101). -/
def padSeq (x : List Byte) : List Byte := x ++ padBytes x.length

/-- Unpad(x) = (y, recognised) (R102). -/
def unpadSeq (x : List Byte) : List Byte × Bool :=
  match x.getLast? with
  | none => (x, false)
  | some v =>
    if v.toNat < 1 ∨ 8 < v.toNat then (x, false)
    else if x.length < v.toNat then (x, false)
    else if (x.drop (x.length - v.toNat)).all (· == v) then (x.take (x.length - v.toNat), true)
    else (x, false)

/-- The message: the first MLEN bytes of BUF (R37). -/
def State.message (s : State) : List Byte := s.buf.readBytes 0 s.mlen.toNat

/-- Where the padded message ends: n + PadLen(n). -/
def State.paddedEnd (s : State) : Nat := s.mlen.toNat + padLen s.mlen.toNat

/-- Append the pad to the message in BUF and add its length to MLEN (R104). -/
def State.padMessage (s : State) : State :=
  { s with
    buf := s.buf.writeBytes s.mlen.toNat (padBytes s.mlen.toNat)
    mlen := BitVec.ofNat 16 s.paddedEnd }

/-- Strip a recognised pad: MLEN <- len(y), PADV <- ok; the stripped bytes stay in BUF (R106, R107). -/
def State.unpadMessage (s : State) : State :=
  let (y, ok) := unpadSeq s.message
  { s with mlen := BitVec.ofNat 16 y.length, status := { s.status with padv := ok } }

/-- PAD (R104): MLENRANGE, then OVERFLOW. -/
def execPad (s : State) : Host.Outcome State Fault Refusal :=
  runCommand (s.mlenError <|> s.overflowError) s.paddedEnd State.padMessage s

/-- UNPAD (R106): MLENRANGE only. -/
def execUnpad (s : State) : Host.Outcome State Fault Refusal :=
  runCommand s.mlenError s.mlen.toNat State.unpadMessage s

end Sys2Proof.Machine
end

