-- ==== Sys2Proof/Machine/Multiblock.lean ====
section
/-! DEFINITION. The multi-block commands ENCM, DECM, ENC and DEC over the shared ECB driver (spec/43_multiblock.md R160
to R166). -/

namespace Sys2Proof.Machine

/-- Blocks 0, …, n-1 of the buffer, each replaced by its image: block b is the 8 bytes at 8b (R160). -/
def ecbBlocks (f : Block → Block) (m : Memory) (n : Nat) : Memory :=
  (List.range n).foldl (fun m b => m.memWrite (8 * b) 8 (f (m.memRead (8 * b) 8))) m

/-- The message completed to whole blocks: a partial last block is zero-filled (R160, decision D16). -/
def zeroFill (m : Memory) (n : Nat) : Memory :=
  m.writeBytes n (List.replicate (ceil8 n - n) 0)

/-- Ecb(dir) (R160). The trace of the iteration is discarded. -/
def State.ecb (dir : Dir) (s : State) : State :=
  let n := s.mlen.toNat
  { s with
    buf := ecbBlocks (fun b => (s.feistelOf b dir).1) (zeroFill s.buf n) (ceil8 n / 8)
    mlen := BitVec.ofNat 16 (ceil8 n) }

/-- ENCM (R161): KEYEMPTY, KEYRANGE, MLENRANGE. -/
def execEncm (s : State) : Host.Outcome State Fault Refusal :=
  runCommand (s.keyError <|> s.mlenError) (ceil8 s.mlen.toNat) (State.ecb .enc) s

/-- DECM (R162): KEYEMPTY, KEYRANGE, MLENRANGE. -/
def execDecm (s : State) : Host.Outcome State Fault Refusal :=
  runCommand (s.keyError <|> s.mlenError) (ceil8 s.mlen.toNat) (State.ecb .dec) s

/-- ENC (R163): KEYEMPTY, KEYRANGE, MLENRANGE, OVERFLOW; pad, then encrypt every block. -/
def execEnc (s : State) : Host.Outcome State Fault Refusal :=
  runCommand (s.keyError <|> s.mlenError <|> s.overflowError) s.paddedEnd
    (fun s => s.padMessage.ecb .enc) s

/-- DEC (R166): KEYEMPTY, KEYRANGE, MLENRANGE; decrypt every block, then unpad once. -/
def execDec (s : State) : Host.Outcome State Fault Refusal :=
  runCommand (s.keyError <|> s.mlenError) (ceil8 s.mlen.toNat)
    (fun s => (s.ecb .dec).unpadMessage) s

end Sys2Proof.Machine
end

