-- ==== Sys2Proof/Machine/Engine.lean ====
section
/-! DEFINITION. The two agents' steps (spec/60_exceptions.md R201): the engine's `Complete`, and what each event does. -/

namespace Sys2Proof.Machine

/-- Execute what the decoder says of the command word; an Illegal word completes with ILLCMD (R200, R201). -/
def runDecoded (d : Except DecodeError Instr) (s : State) : Host.Outcome State Fault Refusal :=
  match d with
  | .ok i => exec i s
  | .error _ => .next (s.completeError .illCmd)

/-- Complete() (R201): the engine decodes CURCMD, the word latched at acceptance (spec/20_memory.md R74). -/
def completeCommand (s : State) : Host.Outcome State Fault Refusal :=
  runDecoded (decode s.curcmd) s

/-- The engine's turn: its only step is `Complete`, enabled exactly when BUSY = 1 (R201). Otherwise it is idle and
holds all state (R215, spec/70_reset_and_hazards.md R232). -/
def engineTurn (s : State) : Host.Outcome State Fault Refusal :=
  if s.status.busy then completeCommand s else .next s

/-- A host transaction is decoded only at offsets below APERTURE (spec/20_memory.md R61). -/
def atOffset (off : Nat) (s : State) : Host.Outcome State Fault Refusal :=
  if off < Config.aperture then .next s else .refused (.outsideAperture off)

/-- What an event does. -/
def takeEvent (e : Event) (s : State) : Host.Outcome State Fault Refusal :=
  match e with
  | .read off => atOffset off (s.hostRead off)
  | .write off v => atOffset off (s.hostWrite off v)
  | .engine => engineTurn s
  | .reset u => .next (s.assertReset u)

/-- The state in which the head of the queue acts: the bus answer of the step before is gone. -/
def State.withInputs (s : State) (rest : List Event) : State :=
  { s with inputs := rest, busOut := none }

/-- One step: the next event, or, when the host has nothing more to do, the engine's turn, so that an accepted command
always completes (weak fairness, R201). -/
def takeStep (s : State) : Host.Outcome State Fault Refusal :=
  match s.inputs with
  | [] => engineTurn (s.withInputs [])
  | e :: rest => takeEvent e (s.withInputs rest)

/-- The command of `w` accepted as the host's write to CMD would accept it, and the engine next to move. -/
def State.acceptNext (s : State) (w : Word) : State :=
  { s.accept w with inputs := .engine :: s.inputs }

end Sys2Proof.Machine
end

