-- ==== Sys2Proof/Machine/Step.lean ====
section
/-! DEFINITION. The machine's step, and the state in which the next step runs a given command. -/

namespace Sys2Proof.Machine

/-- One step of the FBE and its host (spec/60_exceptions.md R201, spec/20_memory.md R70). -/
def step (s : State) : Host.Outcome State Fault Refusal := takeStep s

/-- The state in which the very next step runs the command word `w` (its bits from `nbits` up are 0): the word is
accepted (spec/10_state.md R27) and the engine moves next. The FBE fetches nothing (spec/20_memory.md R74); log entry 8
says how a command comes to run from reset. -/
def State.withFetchWord (s : State) (nbits w : Nat) : State :=
  s.acceptNext (BitVec.ofNat 32 (w % 2 ^ nbits))

end Sys2Proof.Machine
end

