-- ==== Sys2Proof/Safety.lean ====
section
/-! DEFINITION. What the statements are said in: the invariant of the machine, what counts as a run inside the model,
which commands test which condition (spec/60_exceptions.md R203), and the message-level functions of the source's entry
points (spec/43_multiblock.md R164, R168). -/

namespace Sys2Proof

/-! ## The columns of R203 -/

/-- ENCB, DECB, ENCM, DECM, ENC and DEC test KEYEMPTY and KEYRANGE (R203). -/
def Instr.usesKey : Instr → Bool
  | .encb _ | .decb _ | .encm | .decm | .enc | .dec => true
  | .nop | .pad | .unpad => false

/-- PAD, UNPAD, ENCM, DECM, ENC and DEC test MLENRANGE (R203). -/
def Instr.usesBuffer : Instr → Bool
  | .pad | .unpad | .encm | .decm | .enc | .dec => true
  | .nop | .encb _ | .decb _ => false

/-- PAD and ENC test OVERFLOW (R203). -/
def Instr.appendsPad : Instr → Bool
  | .pad | .enc => true
  | .nop | .encb _ | .decb _ | .unpad | .encm | .decm | .dec => false

/-- ENCB.T and DECB.T. -/
def Instr.traced : Instr → Bool
  | .encb t | .decb t => t
  | .nop | .pad | .unpad | .encm | .decm | .enc | .dec => false

end Sys2Proof

namespace Sys2Proof.Machine

/-! ## The invariant -/

/-- KEY has KEY_WORDS words (R6, R20). -/
abbrev State.KeyWf (s : State) : Prop := s.key.length = s.params.keyWords

/-- TRACE has TRACE_DEPTH entries (R6, R20). -/
abbrev State.TraceWf (s : State) : Prop := s.trace.length = Config.traceDepth

/-- BUF is in its canonical form and lists only bytes below BUF_BYTES (R20). -/
abbrev State.BufWf (s : State) : Prop := s.buf.wf ∧ ∀ c ∈ s.buf.cells, c.1 < s.params.bufBytes

/-- At most one of DONE and ERR is 1 (R30), neither while busy (R27), and ERRCODE is 0 exactly when ERR is 0 (R34). -/
abbrev Status.Wf (st : Status) : Prop :=
  ¬ (st.done = true ∧ st.err = true) ∧ (st.busy = true → st.done = false ∧ st.err = false) ∧
  (st.errcode = .none ↔ st.err = false)

/-- The invariant of the FBE. -/
abbrev State.Inv (s : State) : Prop :=
  s.params.Legal ∧ s.KeyWf ∧ s.TraceWf ∧ s.BufWf ∧ s.status.Wf

/-! ## Runs inside the model -/

/-- The event is not a host transaction at an offset that the FBE does not decode (spec/20_memory.md R61). -/
def Event.inAperture : Event → Bool
  | .read off => off < Config.aperture
  | .write off _ => off < Config.aperture
  | .engine => true
  | .reset _ => true

/-- Every event still to come is the FBE's concern. -/
abbrev State.InAperture (s : State) : Prop := ∀ e ∈ s.inputs, e.inAperture = true

/-- The engine moves next, and the queue is `rest` afterwards: it has its turn, or the host has nothing more to do. -/
abbrev State.EngineNext (s : State) (rest : List Event) : Prop :=
  s.inputs = .engine :: rest ∨ (s.inputs = [] ∧ rest = [])

/-- The words of the register map that exist under the parameters `c` (R22). -/
abbrev Target.Exists (c : Config) : Target → Prop
  | .key w => w < c.keyWords
  | .traceHi j => j < Config.traceDepth
  | .traceLo j => j < Config.traceDepth
  | .buf a => a % 4 = 0 ∧ a < c.bufBytes
  | .reserved => False
  | _ => True

/-! ## The operands of a command -/

/-- The key is legal: 1 <= KEYLEN <= KEY_MAX_BITS. -/
abbrev State.KeyLegal (s : State) : Prop := 1 ≤ s.keylen.toNat ∧ s.keylen.toNat ≤ s.params.keyMaxBits

/-- The message fits the buffer: MLEN <= BUF_BYTES. -/
abbrev State.MsgFits (s : State) : Prop := s.mlen.toNat ≤ s.params.bufBytes

/-- The padded message fits the buffer: MLEN + PadLen(MLEN) <= BUF_BYTES. -/
abbrev State.PaddedFits (s : State) : Prop :=
  s.mlen.toNat + (8 - s.mlen.toNat % 8) ≤ s.params.bufBytes

/-- The variants whose decrypt undoes their encrypt (R128): VAR = Identity, or OPSEL = Right. -/
abbrev CfgReg.Invertible (c : CfgReg) : Prop := c.var = .identity ∨ c.opsel = .right

/-! ## Messages as byte sequences -/

/-- The block whose bytes are f 0, …, f 7, the first the most significant (R8, R9). -/
def blockOf (f : Nat → Byte) : Block :=
  f 0 ++ f 1 ++ f 2 ++ f 3 ++ f 4 ++ f 5 ++ f 6 ++ f 7

/-- Byte k of a block, k = 0 the most significant (R8). -/
def blockByte (b : Block) (k : Nat) : Byte := b.extractLsb' (56 - 8 * k) 8

/-- Byte `a` of the message completed with zero bytes: BUF[a] below MLEN and 0x00 from there on (R160). -/
def State.filledByte (s : State) (a : Nat) : Byte := if a < s.mlen.toNat then s.buf.read a else 0

/-- Byte `a` of the padded message: BUF[a] below MLEN and PadLen(MLEN) from there on (R163). -/
def State.paddedByte (s : State) (a : Nat) : Byte :=
  if a < s.mlen.toNat then s.buf.read a else BitVec.ofNat 8 (8 - s.mlen.toNat % 8)

/-- A byte sequence of n whole blocks with `f` applied to every block, in order. -/
def mapBlocks (f : Block → Block) : Nat → List Byte → List Byte
  | 0, _ => []
  | n + 1, x =>
    (List.range 8).map (blockByte (f (blockOf fun k => x.getD k 0))) ++ mapBlocks f n (x.drop 8)

/-- The source's `encrypt` without base64, under a block function (R164): pad, then encrypt every block. -/
def sourceEncrypt (f : Block → Block) (x : List Byte) : List Byte :=
  mapBlocks f ((padSeq x).length / 8) (padSeq x)

/-- The source's `decrypt` without base64 for a whole number of blocks (R168): decrypt every block, then unpad once. -/
def sourceDecrypt (f : Block → Block) (x : List Byte) : List Byte × Bool :=
  unpadSeq (mapBlocks f (x.length / 8) x)

end Sys2Proof.Machine
end

