-- ==== Sys2Proof/Certificates/Slice0/Obligations.lean ====
section
/-! DEFINITION. The statements for the provers, in the order of OBLIGATIONS.json. Each docstring names the rules of spec/
that the statement formalises. -/

open Sys2Proof Sys2Proof.Machine

/-! ## Commands as words (spec/30_encoding.md) -/

/-- R81, R82, R84: a word decodes to a command exactly when it is that command's word, T and every reserved bit
included. -/
def Obligations.DecodeAgreesWithEncode : Prop :=
  ∀ (c : Word) (i : Instr), decode c = .ok i ↔ c = encode i

/-- R85: of all words exactly eleven are legal, and no two of the eleven are the same. -/
def Obligations.ExactlyElevenWordsAreLegal : Prop :=
  let legal : List Word :=
    [0x00000000, 0x00000001, 0x00000011, 0x00000002, 0x00000012, 0x00000003, 0x00000004, 0x00000005, 0x00000006,
      0x00000007, 0x00000008]
  legal.length = 11 ∧ legal.Nodup ∧ ∀ c : Word, (∃ i, decode c = .ok i) ↔ c ∈ legal

/-- R88: the rows of the opcode table, as match and mask, select the commands; a word that selects no row is
Illegal. -/
def Obligations.OpcodeTableSelectsTheCommand : Prop :=
  ∀ c : Word,
    (c &&& 0xFFFFFFFF#32 = 0x00000000#32 ↔ decode c = .ok .nop) ∧
    (c &&& 0xFFFFFFEF#32 = 0x00000001#32 ↔ ∃ t, decode c = .ok (.encb t)) ∧
    (c &&& 0xFFFFFFEF#32 = 0x00000002#32 ↔ ∃ t, decode c = .ok (.decb t)) ∧
    (c &&& 0xFFFFFFFF#32 = 0x00000003#32 ↔ decode c = .ok .pad) ∧
    (c &&& 0xFFFFFFFF#32 = 0x00000004#32 ↔ decode c = .ok .unpad) ∧
    (c &&& 0xFFFFFFFF#32 = 0x00000005#32 ↔ decode c = .ok .encm) ∧
    (c &&& 0xFFFFFFFF#32 = 0x00000006#32 ↔ decode c = .ok .decm) ∧
    (c &&& 0xFFFFFFFF#32 = 0x00000007#32 ↔ decode c = .ok .enc) ∧
    (c &&& 0xFFFFFFFF#32 = 0x00000008#32 ↔ decode c = .ok .dec) ∧
    ((∃ e, decode c = .error e) ↔
      ∀ row ∈ [(0x00000000#32, 0xFFFFFFFF#32), (0x00000001#32, 0xFFFFFFEF#32), (0x00000002#32, 0xFFFFFFEF#32),
        (0x00000003#32, 0xFFFFFFFF#32), (0x00000004#32, 0xFFFFFFFF#32), (0x00000005#32, 0xFFFFFFFF#32),
        (0x00000006#32, 0xFFFFFFFF#32), (0x00000007#32, 0xFFFFFFFF#32), (0x00000008#32, 0xFFFFFFFF#32)],
        c &&& row.2 ≠ row.1)

/-- R82: words written out from the opcode map decode to the commands they stand for, and illegal ones do not. -/
def Obligations.WrittenWordsDecode : Prop :=
  decode 0x00000000 = .ok .nop ∧ decode 0x00000001 = .ok (.encb false) ∧ decode 0x00000011 = .ok (.encb true) ∧
  decode 0x00000012 = .ok (.decb true) ∧ decode 0x00000004 = .ok .unpad ∧ decode 0x00000008 = .ok .dec ∧
  decode 0x00000009 = .error .reservedOpcode ∧ decode 0x00000013 = .error .traceNotAllowed ∧
  decode 0x80000001 = .error .reservedBits

/-! ## Completion (spec/60_exceptions.md) -/

/-- R201: when the engine moves and BUSY = 1, a step is the execution of the command that CURCMD decodes to. Around it
the step only takes the engine's turn off the queue and clears the last bus answer, which are the model's own fields (log
entries 9 and 12). -/
def Obligations.StepRunsTheDecodedCommand : Prop :=
  ∀ (s : State) (rest : List Event) (i : Instr),
    s.EngineNext rest → s.status.busy = true → decode s.curcmd = .ok i →
    step s = exec i { s with inputs := rest, busOut := none }

/-- R200: an Illegal word completes with ILLCMD, code 1, and changes no other state. -/
def Obligations.IllegalWordCompletesWithIllcmd : Prop :=
  ErrCode.illCmd.toBits = 1 ∧
  ∀ (s : State) (rest : List Event) (e : DecodeError),
    s.EngineNext rest → s.status.busy = true → decode s.curcmd = .error e →
    step s = .next { s with
      inputs := rest, busOut := none
      status := { s.status with busy := false, err := true, errcode := .illCmd } }

/-- R203, R204: which commands report which condition, in which order, and that a command tests no other condition. -/
def Obligations.ErrorConditionsInPriorityOrder : Prop :=
  ∀ (i : Instr) (s : State),
    let fails := fun code =>
      exec i s = .next { s with status := { s.status with busy := false, err := true, errcode := code } }
    (i.usesKey = true → s.keylen.toNat = 0 → fails .keyEmpty) ∧
    (i.usesKey = true → s.params.keyMaxBits < s.keylen.toNat → fails .keyRange) ∧
    (i.usesBuffer = true → (i.usesKey = true → s.KeyLegal) → s.params.bufBytes < s.mlen.toNat →
      fails .mlenRange) ∧
    (i.appendsPad = true → (i.usesKey = true → s.KeyLegal) → s.MsgFits → ¬ s.PaddedFits → fails .overflow) ∧
    ((i.usesKey = true → s.KeyLegal) → (i.usesBuffer = true → s.MsgFits) → (i.appendsPad = true → s.PaddedFits) →
      ∀ t, exec i s = .next t →
        t.status.done = true ∧ t.status.err = s.status.err ∧ t.status.errcode = s.status.errcode)

/-- R203: the codes, and that none of 6 to 15 is ever reported. -/
def Obligations.ErrorCodesAreOneToFive : Prop :=
  ErrCode.none.toBits = 0 ∧ ErrCode.illCmd.toBits = 1 ∧ ErrCode.keyEmpty.toBits = 2 ∧ ErrCode.keyRange.toBits = 3 ∧
  ErrCode.mlenRange.toBits = 4 ∧ ErrCode.overflow.toBits = 5 ∧ ∀ e : ErrCode, e.toBits.toNat ≤ 5

/-- R205: a completion with an error changes nothing but BUSY, ERR and ERRCODE, whatever the command word. -/
def Obligations.ErrorsArePrecise : Prop :=
  ∀ (s t : State) (rest : List Event),
    s.EngineNext rest → s.status.busy = true → s.status.err = false →
    step s = .next t → t.status.err = true →
    t.status.errcode ≠ .none ∧
    t = { s with
      inputs := rest, busOut := none
      status := { s.status with busy := false, err := true, errcode := t.status.errcode } }

/-- R104, R6: PAD overflows only on a full buffer (among the lengths that fit). -/
def Obligations.PadOverflowsOnlyOnAFullBuffer : Prop :=
  ∀ s : State, s.Inv → s.MsgFits →
    (exec .pad s =
        .next { s with status := { s.status with busy := false, err := true, errcode := .overflow } } ↔
      s.mlen.toNat = s.params.bufBytes)

/-! ## NOP and the block commands (spec/44_control.md, spec/42_block_commands.md) -/

/-- R180: NOP completes, from every state, with no effect but completion. -/
def Obligations.NopCompletesWithNoEffect : Prop :=
  ∀ s : State, exec .nop s = .next { s with status := { s.status with busy := false, done := true } }

/-- R140, R144: what ENCB and ENCB.T do under a legal key, and that they do nothing else. -/
def Obligations.EncbResult : Prop :=
  ∀ (t : Bool) (s : State), s.KeyLegal →
    let r := feistel s.cfg (roundKey s.key s.keylen.toNat) (s.blk0 ++ s.blk1) .enc s.cfg.rounds.toNat
    exec (.encb t) s = .next { s with
      blk0 := r.1.extractLsb' 32 32
      blk1 := r.1.extractLsb' 0 32
      trace := if t then r.2 ++ s.trace.drop s.cfg.rounds.toNat else s.trace
      trcnt := if t then s.cfg.rounds else s.trcnt
      status := { s.status with busy := false, done := true } }

/-- R141, R144: what DECB and DECB.T do under a legal key, and that they do nothing else. -/
def Obligations.DecbResult : Prop :=
  ∀ (t : Bool) (s : State), s.KeyLegal →
    let r := feistel s.cfg (roundKey s.key s.keylen.toNat) (s.blk0 ++ s.blk1) .dec s.cfg.rounds.toNat
    exec (.decb t) s = .next { s with
      blk0 := r.1.extractLsb' 32 32
      blk1 := r.1.extractLsb' 0 32
      trace := if t then r.2 ++ s.trace.drop s.cfg.rounds.toNat else s.trace
      trcnt := if t then s.cfg.rounds else s.trcnt
      status := { s.status with busy := false, done := true } }

/-- R144: a traced command writes TRACE[0..N-1] in round order and TRCNT, and keeps TRACE[N..254]; an untraced command,
and any command that completes with an error, writes neither. The order of the halves in an entry is decision D14 of the
spec (log entry 11). -/
def Obligations.TraceEntriesAfterACommand : Prop :=
  (∀ (dir : Dir) (s : State), s.Inv → s.KeyLegal →
    let i := match dir with | .enc => Instr.encb true | .dec => Instr.decb true
    let tr := (feistel s.cfg (roundKey s.key s.keylen.toNat) (s.blk0 ++ s.blk1) dir s.cfg.rounds.toNat).2
    ∃ t, exec i s = .next t ∧ t.trcnt = s.cfg.rounds ∧ t.trace.length = 255 ∧
      tr.length = s.cfg.rounds.toNat ∧
      ∀ j < 255, t.trace[j]? = if j < s.cfg.rounds.toNat then tr[j]? else s.trace[j]?) ∧
  (∀ (i : Instr) (s t : State), exec i s = .next t → (i.traced = false ∨ t.status.err = true ∧ s.status.err = false) →
    t.trace = s.trace ∧ t.trcnt = s.trcnt)

/-- R145: no command reads TRACE or TRCNT, and tracing changes neither BLK0, BLK1 nor STATUS. -/
def Obligations.TraceIsAnOutputOnly : Prop :=
  (∀ (i : Instr) (s t : State) (tr : List Block) (n : BitVec 8), exec i s = .next t →
    ∃ u, exec i { s with trace := tr, trcnt := n } = .next u ∧ { u with trace := t.trace, trcnt := t.trcnt } = t) ∧
  (∀ s t u : State,
    (exec (.encb true) s = .next t ∧ exec (.encb false) s = .next u) ∨
      (exec (.decb true) s = .next t ∧ exec (.decb false) s = .next u) →
    t.blk0 = u.blk0 ∧ t.blk1 = u.blk1 ∧ t.status = u.status)

/-! ## The round function and the iteration (spec/41_round_function.md) -/

/-- R120, R121: bit-string position i of the round key is key bit (r + i) mod L, and key bit j is bit 31 - (j mod 32) of
KEY[j div 32]. -/
def Obligations.RoundKeyIsTheCyclicWindow : Prop :=
  ∀ (key : List Word) (l r i : Nat), 1 ≤ l → l ≤ 32 * key.length → i < 32 →
    ∃ w, key[((r + i) % l) / 32]? = some w ∧
      (roundKey key l r).getLsbD (31 - i) = w.getLsbD (31 - ((r + i) % l) % 32)

/-- R122: the five laws of the round key. -/
def Obligations.RoundKeyLaws : Prop :=
  ∀ (key : List Word) (l r : Nat), 1 ≤ l →
    roundKey key l r = roundKey key l (r % l) ∧
    roundKey key l (r + 1) =
      (roundKey key l r <<< 1) ||| (BitVec.ofBool (keyBit key ((r + 32) % l))).setWidth 32 ∧
    (l = 1 → roundKey key l r = if keyBit key 0 then 0xFFFFFFFF else 0) ∧
    (l ∣ 32 → ∀ i < 32, (roundKey key l r).getLsbD (31 - i) = keyBit key ((r % l + i % l) % l)) ∧
    (32 ≤ l → r + 31 < l → ∀ i < 32, (roundKey key l r).getLsbD (31 - i) = keyBit key (r + i))

/-- R123: the round function in its two variants and its operand selection. -/
def Obligations.RoundFunctionVariants : Prop :=
  ∀ (n : BitVec 8) (sel : HalfSel) (k lh rh : Word),
    roundFunction { rounds := n, var := .identity, opsel := sel } k lh rh = k ∧
    roundFunction { rounds := n, var := .xorHalf, opsel := .right } k lh rh = k ^^^ rh ∧
    roundFunction { rounds := n, var := .xorHalf, opsel := .left } k lh rh = k ^^^ lh

/-- R125, R126, R143: the halves after every round, the final swap and the trace. The order of the halves in a trace
entry is the spec's resolution of its conflict C1 (decision D14, log entry 11). -/
def Obligations.FeistelIteration : Prop :=
  ∀ (cfg : CfgReg) (rk : Nat → Word) (b : Block) (dir : Dir) (n : Nat),
    ∃ h : Nat → Word × Word,
      h 0 = (b.extractLsb' 32 32, b.extractLsb' 0 32) ∧
      (∀ i < n,
        h (i + 1) = ((h i).2,
          (h i).1 ^^^ roundFunction cfg (rk (match dir with | .enc => i | .dec => n - 1 - i)) (h i).1 (h i).2)) ∧
      (feistel cfg rk b dir n).1 = (h n).2 ++ (h n).1 ∧
      (feistel cfg rk b dir n).2.length = n ∧
      (∀ i < n, (feistel cfg rk b dir n).2[i]? = some ((h (i + 1)).2 ++ (h (i + 1)).1)) ∧
      (1 ≤ n → (feistel cfg rk b dir n).2.getLast? = some (feistel cfg rk b dir n).1)

/-- R127: zero rounds swap the halves, in both directions, and record nothing. -/
def Obligations.ZeroRoundsSwapTheHalves : Prop :=
  ∀ (cfg : CfgReg) (rk : Nat → Word) (b : Block) (dir : Dir),
    feistel cfg rk b dir 0 = (b.extractLsb' 0 32 ++ b.extractLsb' 32 32, [])

/-- R128: with VAR = Identity or OPSEL = Right each direction undoes the other; with XorHalf and the left operand the
example of the rule shows that it does not. -/
def Obligations.DecryptUndoesEncrypt : Prop :=
  (∀ (cfg : CfgReg) (key : List Word) (l : Nat) (b : Block) (n : Nat), cfg.Invertible →
    (feistel cfg (roundKey key l) (feistel cfg (roundKey key l) b .enc n).1 .dec n).1 = b ∧
    (feistel cfg (roundKey key l) (feistel cfg (roundKey key l) b .dec n).1 .enc n).1 = b) ∧
  (let left : CfgReg := { rounds := 1, var := .xorHalf, opsel := .left }
   let rk := roundKey [0xAAAA0000] 16
   (feistel left rk 0x4849060606060606 .enc 1).1 = 0xAAAAAAAA06060606 ∧
   (feistel left rk 0xAAAAAAAA06060606 .dec 1).1 = 0xAAAAAAAA06060606)

/-- R129: with XorHalf and the left operand the right half after round i is that round's key, and from two rounds on the
output does not depend on the block. That the trace entry shows the right half first is decision D14 (log entry 11). -/
def Obligations.LeftOperandForgetsTheBlock : Prop :=
  ∀ (cfg : CfgReg) (rk : Nat → Word) (b : Block) (dir : Dir) (n : Nat),
    cfg.var = .xorHalf → cfg.opsel = .left →
    let index := fun i => match dir with | .enc => i | .dec => n - 1 - i
    (∀ i < n, ((feistel cfg rk b dir n).2[i]?).map (fun e => e.extractLsb' 32 32) = some (rk (index i))) ∧
    (n = 1 → (feistel cfg rk b dir n).1 = rk 0 ++ b.extractLsb' 0 32) ∧
    (2 ≤ n → (feistel cfg rk b dir n).1 = rk (index (n - 1)) ++ rk (index (n - 2)))

/-- R130: with VAR = Identity the output is the block, halves swapped or not by the parity of N, XORed with a constant;
one flipped bit of the block flips exactly one bit of the output and of every trace entry; and the rule's example. -/
def Obligations.IdentityVariantIsAConstantXor : Prop :=
  (∀ (rk : Nat → Word) (dir : Dir) (n : Nat),
    ∃ c : Block, ∀ (cfg : CfgReg) (b : Block), cfg.var = .identity → (feistel cfg rk b dir n).1 =
      (if n % 2 = 0 then b.extractLsb' 0 32 ++ b.extractLsb' 32 32 else b) ^^^ c) ∧
  (∀ (cfg : CfgReg) (rk : Nat → Word) (dir : Dir) (n : Nat), cfg.var = .identity →
    ∀ k < 64, ∀ b : Block,
      (∃ k' < 64, (feistel cfg rk (b ^^^ BitVec.twoPow 64 k) dir n).1 =
        (feistel cfg rk b dir n).1 ^^^ BitVec.twoPow 64 k') ∧
      (∀ i < n, ∃ k' < 64, ∃ e, (feistel cfg rk b dir n).2[i]? = some e ∧
        (feistel cfg rk (b ^^^ BitVec.twoPow 64 k) dir n).2[i]? = some (e ^^^ BitVec.twoPow 64 k'))) ∧
  (∀ (cfg : CfgReg) (b : Block) (dir : Dir) (n : Nat), cfg.var = .identity → n % 4 = 0 →
    (feistel cfg (roundKey [0xAAAA0000] 16) b dir n).1 = b.extractLsb' 0 32 ++ b.extractLsb' 32 32)

/-! ## Padding (spec/40_padding.md) -/

/-- R103: the three laws of padding. -/
def Obligations.PadLaws : Prop :=
  ∀ x : List Byte,
    (padSeq x).length % 8 = 0 ∧
    1 ≤ (padSeq x).length - x.length ∧ (padSeq x).length - x.length ≤ 8 ∧
    unpadSeq (padSeq x) = (x, true)

/-- R102: what Unpad recognises: exactly the sequences that end in v bytes of value v with v in 1..8; any other sequence
comes back unchanged. The clauses on the empty sequence and on v > n rest on decision D17 of the spec (log entry 11). -/
def Obligations.UnpadRecognisesPads : Prop :=
  ∀ x : List Byte,
    (∀ y, unpadSeq x = (y, true) ↔ ∃ v, 1 ≤ v ∧ v ≤ 8 ∧ x = y ++ List.replicate v (BitVec.ofNat 8 v)) ∧
    ((unpadSeq x).2 = false → (unpadSeq x).1 = x)

/-- R104, R105: what PAD does when the padded message fits: the pad bytes, MLEN, and nothing else. -/
def Obligations.PadResult : Prop :=
  ∀ s : State, s.Inv → s.PaddedFits →
    let n := s.mlen.toNat
    let p := 8 - n % 8
    ∃ m : Memory,
      exec .pad s = .next { s with
        buf := m
        mlen := BitVec.ofNat 16 (n + p)
        status := { s.status with busy := false, done := true } } ∧
      (BitVec.ofNat 16 (n + p)).toNat = n + p ∧
      (∀ a, m.read a = if n ≤ a ∧ a < n + p then BitVec.ofNat 8 p else s.buf.read a) ∧
      m.readBytes 0 (n + p) = padSeq (s.buf.readBytes 0 n)

/-- R102, R106, R107, R201: what UNPAD does when the message fits: MLEN, PADV, DONE, BUSY, and nothing else; an
unrecognised pad is no error. That the stripped bytes stay in BUF is decision D29 of the spec, and what counts as
recognised for the empty message and for v > n is D17 (log entry 11). -/
def Obligations.UnpadResult : Prop :=
  ∀ s : State, s.MsgFits →
    let r := unpadSeq (s.buf.readBytes 0 s.mlen.toNat)
    exec .unpad s = .next { s with
      mlen := BitVec.ofNat 16 r.1.length
      status := { s.status with busy := false, done := true, padv := r.2 } } ∧
    (BitVec.ofNat 16 r.1.length).toNat = r.1.length ∧
    r.1 = s.buf.readBytes 0 r.1.length

/-! ## The multi-block commands (spec/43_multiblock.md) -/

/-- R160, R161, R162: what ENCM and DECM do under a legal key when the message fits: every block of the zero-filled
message, MLEN, and nothing else. The zero fill is decision D16 of the spec (log entry 11). -/
def Obligations.EncmDecmResult : Prop :=
  ∀ s : State, s.Inv → s.KeyLegal → s.MsgFits →
    ∀ p ∈ [(Instr.encm, Dir.enc), (Instr.decm, Dir.dec)],
    let m8 := 8 * ((s.mlen.toNat + 7) / 8)
    ∃ m : Memory,
      exec p.1 s = .next { s with
        buf := m
        mlen := BitVec.ofNat 16 m8
        status := { s.status with busy := false, done := true } } ∧
      (BitVec.ofNat 16 m8).toNat = m8 ∧
      (∀ b < m8 / 8, m.memRead (8 * b) 8 =
        (feistel s.cfg (roundKey s.key s.keylen.toNat) (blockOf fun k => s.filledByte (8 * b + k)) p.2
          s.cfg.rounds.toNat).1) ∧
      (∀ a, m8 ≤ a → m.read a = s.buf.read a)

/-- R163: what ENC does under a legal key when the padded message fits: every block of the padded message, MLEN, and
nothing else. -/
def Obligations.EncResult : Prop :=
  ∀ s : State, s.Inv → s.KeyLegal → s.PaddedFits →
    let m8 := s.mlen.toNat + (8 - s.mlen.toNat % 8)
    ∃ m : Memory,
      exec .enc s = .next { s with
        buf := m
        mlen := BitVec.ofNat 16 m8
        status := { s.status with busy := false, done := true } } ∧
      (BitVec.ofNat 16 m8).toNat = m8 ∧
      (∀ b < m8 / 8, m.memRead (8 * b) 8 =
        (feistel s.cfg (roundKey s.key s.keylen.toNat) (blockOf fun k => s.paddedByte (8 * b + k)) .enc
          s.cfg.rounds.toNat).1) ∧
      (∀ a, m8 ≤ a → m.read a = s.buf.read a)

/-- R166: what DEC does under a legal key when the message fits: every block of the zero-filled message decrypted, then
one strip of the whole, and nothing else; the stripped bytes stay in BUF. The zero fill is decision D16 of the spec, the
bytes that stay are D29 and the empty message is D17 (log entry 11). -/
def Obligations.DecResult : Prop :=
  ∀ s : State, s.Inv → s.KeyLegal → s.MsgFits →
    let m8 := 8 * ((s.mlen.toNat + 7) / 8)
    ∃ m : Memory,
      let r := unpadSeq (m.readBytes 0 m8)
      exec .dec s = .next { s with
        buf := m
        mlen := BitVec.ofNat 16 r.1.length
        status := { s.status with busy := false, done := true, padv := r.2 } } ∧
      (BitVec.ofNat 16 r.1.length).toNat = r.1.length ∧
      (∀ b < m8 / 8, m.memRead (8 * b) 8 =
        (feistel s.cfg (roundKey s.key s.keylen.toNat) (blockOf fun k => s.filledByte (8 * b + k)) .dec
          s.cfg.rounds.toNat).1) ∧
      (∀ a, m8 ≤ a → m.read a = s.buf.read a)

/-- R164, R168: ENC and DEC compute the source's `encrypt` and `decrypt` on byte sequences, without base64 (the host's,
R5); for DEC the message is a whole number of blocks. -/
def Obligations.EncAndDecRefineTheSource : Prop :=
  (∀ s : State, s.Inv → s.KeyLegal → s.PaddedFits →
    ∃ t, exec .enc s = .next t ∧ t.status.done = true ∧
      t.buf.readBytes 0 t.mlen.toNat =
        sourceEncrypt
          (fun b => (feistel s.cfg (roundKey s.key s.keylen.toNat) b .enc s.cfg.rounds.toNat).1)
          (s.buf.readBytes 0 s.mlen.toNat)) ∧
  (∀ s : State, s.Inv → s.KeyLegal → s.MsgFits → s.mlen.toNat % 8 = 0 →
    ∃ t, exec .dec s = .next t ∧ t.status.done = true ∧
      (t.buf.readBytes 0 t.mlen.toNat, t.status.padv) =
        sourceDecrypt
          (fun b => (feistel s.cfg (roundKey s.key s.keylen.toNat) b .dec s.cfg.rounds.toNat).1)
          (s.buf.readBytes 0 s.mlen.toNat))

/-- R167: ENC followed by DEC gives the message back, whatever the host does to other registers in between. -/
def Obligations.DecAfterEncRestoresTheMessage : Prop :=
  ∀ s : State, s.Inv → s.KeyLegal → s.cfg.Invertible → s.mlen.toNat + 1 ≤ s.params.bufBytes →
    ∃ t, exec .enc s = .next t ∧ t.status.done = true ∧
      ∀ u : State, u.params = t.params → u.cfg = s.cfg → u.keylen = s.keylen → u.key = s.key →
        u.mlen = t.mlen → u.buf = t.buf →
        ∃ v, exec .dec u = .next v ∧ v.status.done = true ∧ v.status.padv = true ∧ v.mlen = s.mlen ∧
          ∀ a < s.mlen.toNat, v.buf.read a = s.buf.read a

/-- R165: the result of a multi-block command depends only on MLEN, the message, CFG, KEYLEN and KEY; and equal blocks
give equal blocks. Lengths that are no multiple of 8 rest on the zero fill, decision D16 of the spec (log entry 11). -/
def Obligations.MultiblockResultsDependOnlyOnTheirInputs : Prop :=
  (∀ s u : State, s.Inv → u.Inv → s.params = u.params → s.cfg = u.cfg → s.keylen = u.keylen → s.key = u.key →
    s.mlen = u.mlen → s.status = u.status → (∀ a < s.mlen.toNat, s.buf.read a = u.buf.read a) →
    ∀ i ∈ [Instr.encm, Instr.decm, Instr.enc, Instr.dec], ∀ t, exec i s = .next t →
      ∃ v, exec i u = .next v ∧ v.mlen = t.mlen ∧ v.status = t.status ∧
        ∀ a < t.mlen.toNat, v.buf.read a = t.buf.read a) ∧
  (∀ s t : State, s.Inv → s.KeyLegal → s.MsgFits → ∀ i ∈ [Instr.encm, Instr.decm], exec i s = .next t →
    ∀ b c, 8 * b < s.mlen.toNat → 8 * c < s.mlen.toNat →
      (∀ k < 8, s.filledByte (8 * b + k) = s.filledByte (8 * c + k)) →
      t.buf.memRead (8 * b) 8 = t.buf.memRead (8 * c) 8)

/-! ## Rules about the whole machine -/

/-- The invariant of the machine holds after every step from every state in which it holds: the parameters stay legal,
KEY and TRACE keep their sizes, BUF stays canonical and inside BUF_BYTES, at most one of DONE and ERR is 1 and neither
while busy (R30), and ERRCODE is 0 exactly when ERR is 0 (R34). -/
def Obligations.EveryStepKeepsTheInvariant : Prop :=
  ∀ s t : State, s.Inv → step s = .next t → t.Inv

/-- The invariant holds right after reset; the contents of BUF and TRACE in `State.reset` are the model's choice (log
entries 2 and 6). -/
def Obligations.ResetMeetsTheInvariant : Prop :=
  State.reset.Inv

/-- R12, R64, R72: no step faults; every access that a command makes to BUF is inside it. -/
def Obligations.NoStepFaults : Prop :=
  ∀ (s : State) (r : Fault), s.Inv → step s ≠ .fault r

/-- R61, R85: a step is refused exactly when the host's transaction is at an offset that the FBE does not decode; no
command word is ever refused. The refusal is the model's (log entry 5). -/
def Obligations.OnlyOffsetsOutsideTheApertureAreRefused : Prop :=
  ∀ (s : State) (r : Refusal),
    step s = .refused r ↔
      ∃ off rest, 0x4000 ≤ off ∧ r = .outsideAperture off ∧
        (s.inputs = .read off :: rest ∨ ∃ v, s.inputs = .write off v :: rest)

/-- R201, R240: an accepted command completes (or is abandoned by reset) after finitely many steps, whatever the host
does in the meantime inside the aperture. That the engine moves when no event is left is the model's choice (log
entry 9). -/
def Obligations.AnAcceptedCommandCompletesOrIsAbandonedByReset : Prop :=
  ∀ s : State, s.Inv → s.InAperture → s.status.busy = true →
    ∃ k ≤ s.inputs.length + 1, ∃ t, Sys2Proof.core.run k s = .next t ∧ t.status.busy = false

/-- R29: BUSY is set only by the acceptance of a command, and cleared only by its completion or by reset. -/
def Obligations.BusyFollowsTheHandshake : Prop :=
  ∀ s t : State, step s = .next t →
    (s.status.busy = false → t.status.busy = true →
      ∃ off c rest, s.inputs = .write off c :: rest ∧ off - off % 4 = 0x00C ∧ t.curcmd = c) ∧
    (s.status.busy = true → t.status.busy = false →
      (∃ rest, s.EngineNext rest ∧ (t.status.done = true ∨ t.status.err = true)) ∨
      ∃ u rest, s.inputs = .reset u :: rest)

/-- R33: PADV changes only by a completion of UNPAD or DEC without error, or by reset, to 0. -/
def Obligations.PadvIsWrittenByUnpadDecAndReset : Prop :=
  ∀ s t : State, step s = .next t → t.status.padv ≠ s.status.padv →
    (∃ rest, s.EngineNext rest ∧ s.status.busy = true ∧
      (decode s.curcmd = .ok .unpad ∨ decode s.curcmd = .ok .dec) ∧ t.status.done = true ∧
      t.status.err = s.status.err) ∨
    ((∃ u rest, s.inputs = .reset u :: rest) ∧ t.status.padv = false)

/-- R31, R208: WIGN is set by a write ignored while busy and by nothing else, that write does nothing else, and WIGN
stays until a STATUS write with bit 3 set or reset. -/
def Obligations.WignIsSticky : Prop :=
  ∀ s t : State, step s = .next t →
    (s.status.wign = false → t.status.wign = true →
      s.status.busy = true ∧ ∃ off v rest, s.inputs = .write off v :: rest ∧
        t = { s with inputs := rest, busOut := none, status := { s.status with wign := true } }) ∧
    (s.status.wign = true → t.status.wign = false →
      (∃ off v rest, s.inputs = .write off v :: rest ∧ off - off % 4 = 0x010 ∧ v.getLsbD 3 = true) ∨
      ∃ u rest, s.inputs = .reset u :: rest)

/-- R38, R41, R144: TRACE and TRCNT change only by a traced ENCB or DECB that completes without error, or by reset. -/
def Obligations.OnlyTracedCommandsWriteTheTrace : Prop :=
  ∀ s t : State, step s = .next t → (t.trace ≠ s.trace ∨ t.trcnt ≠ s.trcnt) →
    (∃ rest, s.EngineNext rest ∧ s.status.busy = true ∧ s.KeyLegal ∧ t.status.done = true ∧
      (decode s.curcmd = .ok (.encb true) ∨ decode s.curcmd = .ok (.decb true))) ∨
    ∃ u rest, s.inputs = .reset u :: rest

/-- R39, R142: BLK0 and BLK1 change only by ENCB, DECB, a host write to the register, or reset; and a block command
touches neither BUF nor MLEN nor PADV. -/
def Obligations.BlockAndBufferCommandsAreSeparate : Prop :=
  (∀ s t : State, step s = .next t → (t.blk0 ≠ s.blk0 ∨ t.blk1 ≠ s.blk1) →
    (∃ rest d, s.EngineNext rest ∧ s.status.busy = true ∧
      (decode s.curcmd = .ok (.encb d) ∨ decode s.curcmd = .ok (.decb d))) ∨
    (∃ off v rest, s.inputs = .write off v :: rest ∧ s.status.busy = false ∧
      (off - off % 4 = 0x028 ∨ off - off % 4 = 0x02C)) ∨
    ∃ u rest, s.inputs = .reset u :: rest) ∧
  (∀ (d : Bool) (s t : State), exec (.encb d) s = .next t ∨ exec (.decb d) s = .next t →
    t.buf = s.buf ∧ t.mlen = s.mlen ∧ t.status.padv = s.status.padv)

/-- R182: CFG, IRQEN, KEYLEN and KEY change only by a host write or by reset, never by a command, and the parameters
never change. -/
def Obligations.OnlyTheHostConfigures : Prop :=
  ∀ s t : State, step s = .next t →
    t.params = s.params ∧
    (t.cfg ≠ s.cfg ∨ t.irqen ≠ s.irqen ∨ t.keylen ≠ s.keylen ∨ t.key ≠ s.key →
      (∃ off v rest, s.inputs = .write off v :: rest) ∨ ∃ u rest, s.inputs = .reset u :: rest)

/-- R65: no input of the engine, nor any of its outputs, changes between acceptance and completion. -/
def Obligations.NothingMovesWhileBusy : Prop :=
  ∀ s t : State, step s = .next t → s.status.busy = true → t.status.busy = true →
    t.cfg = s.cfg ∧ t.keylen = s.keylen ∧ t.mlen = s.mlen ∧ t.blk0 = s.blk0 ∧ t.blk1 = s.blk1 ∧ t.key = s.key ∧
    t.buf = s.buf ∧ t.curcmd = s.curcmd ∧ t.trace = s.trace ∧ t.trcnt = s.trcnt ∧ t.status.padv = s.status.padv

/-! ## Host transactions (spec/44_control.md, spec/10_state.md, spec/20_memory.md) -/

/-- R181, R22 to R28, R35 to R41, R62: what a Read answers while the engine is idle, and that it changes nothing
else. -/
def Obligations.ReadWhileIdle : Prop :=
  ∀ (s : State) (off : Nat) (rest : List Event),
    s.Inv → s.inputs = .read off :: rest → s.status.busy = false → off < 0x4000 →
    let w := off - off % 4
    ∃ v : Word, step s = .next { s with inputs := rest, busOut := some v } ∧
      (w = 0x000 → v = 0x46424531) ∧
      (w = 0x004 → v.toNat = 65536 * s.params.bufBytes + s.params.keyMaxBits) ∧
      (w = 0x008 → v.toNat = s.cfg.rounds.toNat + 256 * (if s.cfg.var = .xorHalf then 1 else 0) +
        512 * (if s.cfg.opsel = .left then 1 else 0)) ∧
      (w = 0x00C → v = 0) ∧
      (w = 0x010 → v.toNat = 2 * s.status.done.toNat + 4 * s.status.err.toNat +
        8 * s.status.wign.toNat + 16 * s.status.padv.toNat + 256 * s.status.errcode.toBits.toNat) ∧
      (w = 0x014 → v.toNat = s.irqen.doneie.toNat + 2 * s.irqen.errie.toNat) ∧
      (w = 0x018 → v.toNat = s.keylen.toNat) ∧
      (w = 0x01C → v.toNat = s.mlen.toNat) ∧
      (w = 0x020 → v.toNat = s.trcnt.toNat) ∧
      (w = 0x028 → v = s.blk0) ∧
      (w = 0x02C → v = s.blk1) ∧
      (∀ k < s.params.keyWords, w = 0x100 + 4 * k → s.key[k]? = some v) ∧
      (∀ j < 255, w = 0x1000 + 8 * j → (s.trace[j]?).map (fun e => e.extractLsb' 32 32) = some v) ∧
      (∀ j < 255, w = 0x1004 + 8 * j → (s.trace[j]?).map (fun e => e.extractLsb' 0 32) = some v) ∧
      (∀ a < s.params.bufBytes, w = 0x2000 + a →
        v = s.buf.read a ++ s.buf.read (a + 1) ++ s.buf.read (a + 2) ++ s.buf.read (a + 3)) ∧
      (w = 0x024 ∨ (0x030 ≤ w ∧ w < 0x100) ∨ (0x100 + 4 * s.params.keyWords ≤ w ∧ w < 0x1000) ∨
        (0x17F8 ≤ w ∧ w < 0x2000) ∨ 0x2000 + s.params.bufBytes ≤ w → v = 0)

/-- R66, and R22 and R181 for CMD and reserved words: what a Read answers while the engine is busy: a free value for
BLK0, BLK1, MLEN, TRCNT, TRACE and BUF, a free PADV in STATUS, and the true value elsewhere; and that it changes no
architectural state (R67). The free values and the counter that they are applied to are the model's choice (log
entry 1). -/
def Obligations.ReadWhileBusy : Prop :=
  ∀ (s : State) (off : Nat) (rest : List Event),
    s.Inv → s.inputs = .read off :: rest → s.status.busy = true → off < 0x4000 →
    let w := off - off % 4
    ∃ v : Word, step s = .next { s with inputs := rest, busOut := some v, draws := s.draws + 1 } ∧
      (w = 0x01C ∨ w = 0x020 ∨ w = 0x028 ∨ w = 0x02C ∨ (0x1000 ≤ w ∧ w < 0x17F8) ∨
        (0x2000 ≤ w ∧ w < 0x2000 + s.params.bufBytes) → v = Config.freeRead s.draws) ∧
      (w = 0x010 → v.toNat = 1 + 2 * s.status.done.toNat + 4 * s.status.err.toNat + 8 * s.status.wign.toNat +
        16 * (Config.freePadv s.draws).toNat + 256 * s.status.errcode.toBits.toNat) ∧
      (w = 0x000 → v = 0x46424531) ∧
      (w = 0x004 → v.toNat = 65536 * s.params.bufBytes + s.params.keyMaxBits) ∧
      (w = 0x008 → v.toNat = s.cfg.rounds.toNat + 256 * (if s.cfg.var = .xorHalf then 1 else 0) +
        512 * (if s.cfg.opsel = .left then 1 else 0)) ∧
      (w = 0x014 → v.toNat = s.irqen.doneie.toNat + 2 * s.irqen.errie.toNat) ∧
      (w = 0x018 → v.toNat = s.keylen.toNat) ∧
      (∀ k < s.params.keyWords, w = 0x100 + 4 * k → s.key[k]? = some v) ∧
      (w = 0x00C ∨ w = 0x024 ∨ (0x030 ≤ w ∧ w < 0x100) ∨ (0x100 + 4 * s.params.keyWords ≤ w ∧ w < 0x1000) ∨
        (0x17F8 ≤ w ∧ w < 0x2000) ∨ 0x2000 + s.params.bufBytes ≤ w → v = 0)

/-- R182: what a Write does while the engine is idle, offset by offset. -/
def Obligations.WriteWhileIdle : Prop :=
  ∀ (s : State) (off : Nat) (v : Word) (rest : List Event),
    s.Inv → s.inputs = .write off v :: rest → s.status.busy = false → off < 0x4000 →
    let w := off - off % 4
    let q := { s with inputs := rest, busOut := none }
    (w = 0x008 → step s = .next { q with cfg :=
      { rounds := v.extractLsb' 0 8, var := if v.getLsbD 8 then .xorHalf else .identity,
        opsel := if v.getLsbD 9 then .left else .right } }) ∧
    (w = 0x00C → step s = .next { q with
      curcmd := v
      status := { s.status with busy := true, done := false, err := false, errcode := .none } }) ∧
    (w = 0x010 → step s = .next { q with status :=
      { s.status with
        done := s.status.done && !v.getLsbD 1
        err := s.status.err && !v.getLsbD 2
        errcode := if v.getLsbD 2 then .none else s.status.errcode
        wign := s.status.wign && !v.getLsbD 3 } }) ∧
    (w = 0x014 → step s = .next { q with irqen := { doneie := v.getLsbD 0, errie := v.getLsbD 1 } }) ∧
    (w = 0x018 → step s = .next { q with keylen := v.extractLsb' 0 10 }) ∧
    (w = 0x01C → step s = .next { q with mlen := v.extractLsb' 0 16 }) ∧
    (w = 0x028 → step s = .next { q with blk0 := v }) ∧
    (w = 0x02C → step s = .next { q with blk1 := v }) ∧
    (∀ k < s.params.keyWords, w = 0x100 + 4 * k → ∃ key', step s = .next { q with key := key' } ∧
      key'.length = s.key.length ∧ ∀ j < key'.length, key'[j]? = if j = k then some v else s.key[j]?) ∧
    (∀ a < s.params.bufBytes, w = 0x2000 + a → ∃ m, step s = .next { q with buf := m } ∧
      m.read a = v.extractLsb' 24 8 ∧ m.read (a + 1) = v.extractLsb' 16 8 ∧
      m.read (a + 2) = v.extractLsb' 8 8 ∧ m.read (a + 3) = v.extractLsb' 0 8 ∧
      ∀ x, x < a ∨ a + 4 ≤ x → m.read x = s.buf.read x) ∧
    (w = 0x000 ∨ w = 0x004 ∨ w = 0x020 ∨ w = 0x024 ∨ (0x030 ≤ w ∧ w < 0x100) ∨
      (0x100 + 4 * s.params.keyWords ≤ w ∧ w < 0x2000) ∨ 0x2000 + s.params.bufBytes ≤ w → step s = .next q)

/-- R65: what a Write does while the engine is busy, offset by offset. The idle half of R65 is in
`Obligations.WriteWhileIdle`. -/
def Obligations.WriteWhileBusy : Prop :=
  ∀ (s : State) (off : Nat) (v : Word) (rest : List Event),
    s.params.Legal → s.inputs = .write off v :: rest → s.status.busy = true → off < 0x4000 →
    let w := off - off % 4
    let q := { s with inputs := rest, busOut := none }
    (w = 0x008 ∨ w = 0x00C ∨ w = 0x018 ∨ w = 0x01C ∨ w = 0x028 ∨ w = 0x02C ∨
        (0x100 ≤ w ∧ w < 0x100 + 4 * s.params.keyWords) ∨ (0x2000 ≤ w ∧ w < 0x2000 + s.params.bufBytes) →
      step s = .next { q with status := { s.status with wign := true } }) ∧
    (w = 0x010 → step s = .next { q with status :=
      { s.status with
        done := s.status.done && !v.getLsbD 1
        err := s.status.err && !v.getLsbD 2
        errcode := if v.getLsbD 2 then .none else s.status.errcode
        wign := s.status.wign && !v.getLsbD 3 } }) ∧
    (w = 0x014 → step s = .next { q with irqen := { doneie := v.getLsbD 0, errie := v.getLsbD 1 } }) ∧
    (w = 0x000 ∨ w = 0x004 ∨ w = 0x020 ∨ w = 0x024 ∨ (0x030 ≤ w ∧ w < 0x100) ∨
      (0x100 + 4 * s.params.keyWords ≤ w ∧ w < 0x2000) ∨ 0x2000 + s.params.bufBytes ≤ w → step s = .next q)

/-- R27: acceptance of a command by a write to CMD, whatever the word; CMD reads 0; while busy the write is ignored. -/
def Obligations.AcceptanceOfACommand : Prop :=
  ∀ (s : State) (off : Nat) (c : Word) (rest : List Event), off - off % 4 = 0x00C →
    (s.inputs = .write off c :: rest → s.status.busy = false → step s = .next { s with
      inputs := rest, busOut := none, curcmd := c
      status := { s.status with busy := true, done := false, err := false, errcode := .none } }) ∧
    (s.inputs = .write off c :: rest → s.status.busy = true → step s = .next { s with
      inputs := rest, busOut := none, status := { s.status with wign := true } }) ∧
    (s.inputs = .read off :: rest → ∃ t, step s = .next t ∧ t.busOut = some 0)

/-- R32: a STATUS write clears DONE, ERR with ERRCODE, and WIGN by its bits 1, 2 and 3, ignores its other bits, and is
honoured while busy. -/
def Obligations.StatusIsWriteOneToClear : Prop :=
  ∀ (s : State) (off : Nat) (v : Word) (rest : List Event),
    s.inputs = .write off v :: rest → off - off % 4 = 0x010 →
    step s = .next { s with
      inputs := rest, busOut := none
      status :=
        { busy := s.status.busy
          done := if v.getLsbD 1 then false else s.status.done
          err := if v.getLsbD 2 then false else s.status.err
          errcode := if v.getLsbD 2 then .none else s.status.errcode
          wign := if v.getLsbD 3 then false else s.status.wign
          padv := s.status.padv } }

/-- R22, R25, R35, R36, R37, R39, R40, R62: a register reads back what was written to its defined fields. -/
def Obligations.RegistersReadBackTheirFields : Prop :=
  ∀ (s : State) (o r : Nat) (v mask : Word) (rest : List Event),
    s.Inv → s.status.busy = false → o - o % 4 = r - r % 4 →
    s.inputs = .write o v :: .read r :: rest →
    let w := o - o % 4
    (w = 0x008 ∧ mask = 0x3FF ∨ w = 0x014 ∧ mask = 0x3 ∨ w = 0x018 ∧ mask = 0x3FF ∨ w = 0x01C ∧ mask = 0xFFFF ∨
      (w = 0x028 ∨ w = 0x02C ∨ (0x100 ≤ w ∧ w < 0x100 + 4 * s.params.keyWords) ∨
        (0x2000 ≤ w ∧ w < 0x2000 + s.params.bufBytes)) ∧ mask = 0xFFFFFFFF) →
    ∃ t, step s = .next t ∧ step t = .next { t with inputs := rest, busOut := some (v &&& mask) }

/-- R61: bits [1:0] of an offset are not decoded. -/
def Obligations.LowOffsetBitsAreIgnored : Prop :=
  ∀ (s : State) (off : Nat) (v : Word) (rest : List Event), off < 0x4000 →
    step { s with inputs := .read off :: rest } = step { s with inputs := .read (off - off % 4) :: rest } ∧
    step { s with inputs := .write off v :: rest } = step { s with inputs := .write (off - off % 4) v :: rest }

/-- R40: byte k of the key is bits [31-8(k mod 4) : 24-8(k mod 4)] of KEY[k div 4], most significant bit first. -/
def Obligations.KeyBytesArePackedBigEndian : Prop :=
  ∀ (key : List Word) (k b : Nat), k < 4 * key.length → b < 8 →
    ∃ w, key[k / 4]? = some w ∧ keyBit key (8 * k + b) = (w.extractLsb' (24 - 8 * (k % 4)) 8).getLsbD (7 - b)

/-- R12: MemRead and MemWrite put the most significant byte at the lowest address, MemWrite changes no other byte, and
what it wrote is read back. -/
def Obligations.MemoryPrimitives : Prop :=
  ∀ (m : Memory) (a n : Nat) (v : BitVec (8 * n)), m.wf →
    (∀ k < n, m.read (a + k) = (m.memRead a n).extractLsb' (8 * (n - k) - 8) 8) ∧
    (∀ k < n, (m.memWrite a n v).read (a + k) = v.extractLsb' (8 * (n - k) - 8) 8) ∧
    (∀ x, x < a ∨ a + n ≤ x → (m.memWrite a n v).read x = m.read x) ∧
    (m.memWrite a n v).memRead a n = v ∧ (m.memWrite a n v).wf

/-! ## Interrupt, idle and reset (spec/60_exceptions.md, spec/70_reset_and_hazards.md) -/

/-- R209, R71, R27, R30: the level of `irq`; that it implies that completion has happened, without and with an error never both;
and the three writes that lower it: accepting a command, clearing the STATUS bit that is set, clearing its enable. -/
def Obligations.InterruptLevel : Prop :=
  ∀ s : State,
    (s.irq = true ↔ s.status.done = true ∧ s.irqen.doneie = true ∨ s.status.err = true ∧ s.irqen.errie = true) ∧
    (s.Inv → s.irq = true → s.status.busy = false ∧ ¬ (s.status.done = true ∧ s.status.err = true)) ∧
    (∀ (off : Nat) (v : Word) (rest : List Event), s.inputs = .write off v :: rest →
      (off - off % 4 = 0x00C ∧ s.status.busy = false ∨
        off - off % 4 = 0x010 ∧ (s.status.done = true → v.getLsbD 1 = true) ∧
          (s.status.err = true → v.getLsbD 2 = true) ∨
        off - off % 4 = 0x014 ∧ (s.status.done = true → v.getLsbD 0 = false) ∧
          (s.status.err = true → v.getLsbD 1 = false)) →
      ∃ t, step s = .next t ∧ t.irq = false)

/-- R215, R232: an idle engine holds all state; with no transaction nothing happens. -/
def Obligations.AnIdleEngineHoldsItsState : Prop :=
  ∀ (s : State) (rest : List Event), s.EngineNext rest → s.status.busy = false →
    step s = .next { s with inputs := rest, busOut := none }

/-- R230, R231, R43: what reset leaves, idle or busy. BUF, TRACE and CURCMD are not in it. -/
def Obligations.ResetLeavesTheseValues : Prop :=
  ∀ (s : State) (u : Unspecified) (rest : List Event), s.inputs = .reset u :: rest →
    ∃ t, step s = .next t ∧
      t.cfg = { rounds := 0, var := .identity, opsel := .right } ∧
      t.status = { busy := false, done := false, err := false, wign := false, padv := false, errcode := .none } ∧
      t.irqen = { doneie := false, errie := false } ∧ t.keylen = 0 ∧ t.mlen = 0 ∧ t.trcnt = 0 ∧
      t.blk0 = 0 ∧ t.blk1 = 0 ∧ t.key = List.replicate t.params.keyWords 0 ∧ t.params = s.params ∧
      t.inputs = rest ∧ t.irq = false

/-- R43, R41 and U-1, U-2, U-5 of spec/93_implementation_defined.md: after reset BUF, TRACE and CURCMD may hold
anything. That they come with the reset event is the model's choice (log entry 3). -/
def Obligations.ResetCanLeaveAnyContents : Prop :=
  ∀ (s : State) (rest : List Event) (bytes : Nat → Byte) (entries : List Block) (c : Word), entries.length = 255 →
    ∃ u t, step { s with inputs := .reset u :: rest } = .next t ∧
      (∀ a < s.params.bufBytes, t.buf.read a = bytes a) ∧ t.trace = entries ∧ t.curcmd = c

/-- R43: the registers of the state right after reset, with the reference parameters of R6. -/
def Obligations.ResetStateRegisters : Prop :=
  let s := State.reset
  s.params = { keyMaxBits := 256, bufBytes := 4096 } ∧
  s.cfg = { rounds := 0, var := .identity, opsel := .right } ∧
  s.status.toWord = 0 ∧ s.irqen = { doneie := false, errie := false } ∧ s.keylen = 0 ∧ s.mlen = 0 ∧ s.trcnt = 0 ∧
  s.blk0 = 0 ∧ s.blk1 = 0 ∧ s.key = [0, 0, 0, 0, 0, 0, 0, 0] ∧ s.irq = false
end

