-- ==== Sys2Proof/Laws/State.lean ====
section
/-! SUPPORT. One lemma for each field of State and each named update, so that no proof unfolds a record update. -/

namespace Sys2Proof.Machine

section
variable (s : State)

/-! ## Acceptance (spec/10_state.md R27) -/

@[simp] theorem State.accept_params (c : Word) : (s.accept c).params = s.params := rfl
@[simp] theorem State.accept_cfg (c : Word) : (s.accept c).cfg = s.cfg := rfl
@[simp] theorem State.accept_status (c : Word) : (s.accept c).status = s.status.accepted := rfl
@[simp] theorem State.accept_irqen (c : Word) : (s.accept c).irqen = s.irqen := rfl
@[simp] theorem State.accept_keylen (c : Word) : (s.accept c).keylen = s.keylen := rfl
@[simp] theorem State.accept_mlen (c : Word) : (s.accept c).mlen = s.mlen := rfl
@[simp] theorem State.accept_trcnt (c : Word) : (s.accept c).trcnt = s.trcnt := rfl
@[simp] theorem State.accept_blk0 (c : Word) : (s.accept c).blk0 = s.blk0 := rfl
@[simp] theorem State.accept_blk1 (c : Word) : (s.accept c).blk1 = s.blk1 := rfl
@[simp] theorem State.accept_key (c : Word) : (s.accept c).key = s.key := rfl
@[simp] theorem State.accept_trace (c : Word) : (s.accept c).trace = s.trace := rfl
@[simp] theorem State.accept_buf (c : Word) : (s.accept c).buf = s.buf := rfl
@[simp] theorem State.accept_curcmd (c : Word) : (s.accept c).curcmd = c := rfl
@[simp] theorem State.accept_inputs (c : Word) : (s.accept c).inputs = s.inputs := rfl
@[simp] theorem State.accept_busOut (c : Word) : (s.accept c).busOut = s.busOut := rfl
@[simp] theorem State.accept_draws (c : Word) : (s.accept c).draws = s.draws := rfl

/-! ## Completion without error (spec/60_exceptions.md R201) -/

@[simp] theorem State.complete_params : (s.complete).params = s.params := rfl
@[simp] theorem State.complete_cfg : (s.complete).cfg = s.cfg := rfl
@[simp] theorem State.complete_status : (s.complete).status = s.status.completed := rfl
@[simp] theorem State.complete_irqen : (s.complete).irqen = s.irqen := rfl
@[simp] theorem State.complete_keylen : (s.complete).keylen = s.keylen := rfl
@[simp] theorem State.complete_mlen : (s.complete).mlen = s.mlen := rfl
@[simp] theorem State.complete_trcnt : (s.complete).trcnt = s.trcnt := rfl
@[simp] theorem State.complete_blk0 : (s.complete).blk0 = s.blk0 := rfl
@[simp] theorem State.complete_blk1 : (s.complete).blk1 = s.blk1 := rfl
@[simp] theorem State.complete_key : (s.complete).key = s.key := rfl
@[simp] theorem State.complete_trace : (s.complete).trace = s.trace := rfl
@[simp] theorem State.complete_buf : (s.complete).buf = s.buf := rfl
@[simp] theorem State.complete_curcmd : (s.complete).curcmd = s.curcmd := rfl
@[simp] theorem State.complete_inputs : (s.complete).inputs = s.inputs := rfl
@[simp] theorem State.complete_busOut : (s.complete).busOut = s.busOut := rfl
@[simp] theorem State.complete_draws : (s.complete).draws = s.draws := rfl

/-! ## Completion with an error (R201) -/

@[simp] theorem State.completeError_params (e : ErrCode) : (s.completeError e).params = s.params := rfl
@[simp] theorem State.completeError_cfg (e : ErrCode) : (s.completeError e).cfg = s.cfg := rfl
@[simp] theorem State.completeError_status (e : ErrCode) : (s.completeError e).status = s.status.failed e := rfl
@[simp] theorem State.completeError_irqen (e : ErrCode) : (s.completeError e).irqen = s.irqen := rfl
@[simp] theorem State.completeError_keylen (e : ErrCode) : (s.completeError e).keylen = s.keylen := rfl
@[simp] theorem State.completeError_mlen (e : ErrCode) : (s.completeError e).mlen = s.mlen := rfl
@[simp] theorem State.completeError_trcnt (e : ErrCode) : (s.completeError e).trcnt = s.trcnt := rfl
@[simp] theorem State.completeError_blk0 (e : ErrCode) : (s.completeError e).blk0 = s.blk0 := rfl
@[simp] theorem State.completeError_blk1 (e : ErrCode) : (s.completeError e).blk1 = s.blk1 := rfl
@[simp] theorem State.completeError_key (e : ErrCode) : (s.completeError e).key = s.key := rfl
@[simp] theorem State.completeError_trace (e : ErrCode) : (s.completeError e).trace = s.trace := rfl
@[simp] theorem State.completeError_buf (e : ErrCode) : (s.completeError e).buf = s.buf := rfl
@[simp] theorem State.completeError_curcmd (e : ErrCode) : (s.completeError e).curcmd = s.curcmd := rfl
@[simp] theorem State.completeError_inputs (e : ErrCode) : (s.completeError e).inputs = s.inputs := rfl
@[simp] theorem State.completeError_busOut (e : ErrCode) : (s.completeError e).busOut = s.busOut := rfl
@[simp] theorem State.completeError_draws (e : ErrCode) : (s.completeError e).draws = s.draws := rfl

/-! ## The head of the queue taken off -/

@[simp] theorem State.withInputs_params (q : List Event) : (s.withInputs q).params = s.params := rfl
@[simp] theorem State.withInputs_cfg (q : List Event) : (s.withInputs q).cfg = s.cfg := rfl
@[simp] theorem State.withInputs_status (q : List Event) : (s.withInputs q).status = s.status := rfl
@[simp] theorem State.withInputs_irqen (q : List Event) : (s.withInputs q).irqen = s.irqen := rfl
@[simp] theorem State.withInputs_keylen (q : List Event) : (s.withInputs q).keylen = s.keylen := rfl
@[simp] theorem State.withInputs_mlen (q : List Event) : (s.withInputs q).mlen = s.mlen := rfl
@[simp] theorem State.withInputs_trcnt (q : List Event) : (s.withInputs q).trcnt = s.trcnt := rfl
@[simp] theorem State.withInputs_blk0 (q : List Event) : (s.withInputs q).blk0 = s.blk0 := rfl
@[simp] theorem State.withInputs_blk1 (q : List Event) : (s.withInputs q).blk1 = s.blk1 := rfl
@[simp] theorem State.withInputs_key (q : List Event) : (s.withInputs q).key = s.key := rfl
@[simp] theorem State.withInputs_trace (q : List Event) : (s.withInputs q).trace = s.trace := rfl
@[simp] theorem State.withInputs_buf (q : List Event) : (s.withInputs q).buf = s.buf := rfl
@[simp] theorem State.withInputs_curcmd (q : List Event) : (s.withInputs q).curcmd = s.curcmd := rfl
@[simp] theorem State.withInputs_inputs (q : List Event) : (s.withInputs q).inputs = q := rfl
@[simp] theorem State.withInputs_busOut (q : List Event) : (s.withInputs q).busOut = none := rfl
@[simp] theorem State.withInputs_draws (q : List Event) : (s.withInputs q).draws = s.draws := rfl

/-! ## WriteTrace (spec/42_block_commands.md R144) -/

@[simp] theorem State.writeTrace_params (tr : List Block) : (s.writeTrace tr).params = s.params := rfl
@[simp] theorem State.writeTrace_cfg (tr : List Block) : (s.writeTrace tr).cfg = s.cfg := rfl
@[simp] theorem State.writeTrace_status (tr : List Block) : (s.writeTrace tr).status = s.status := rfl
@[simp] theorem State.writeTrace_irqen (tr : List Block) : (s.writeTrace tr).irqen = s.irqen := rfl
@[simp] theorem State.writeTrace_keylen (tr : List Block) : (s.writeTrace tr).keylen = s.keylen := rfl
@[simp] theorem State.writeTrace_mlen (tr : List Block) : (s.writeTrace tr).mlen = s.mlen := rfl
@[simp] theorem State.writeTrace_trcnt (tr : List Block) : (s.writeTrace tr).trcnt = BitVec.ofNat 8 tr.length := rfl
@[simp] theorem State.writeTrace_blk0 (tr : List Block) : (s.writeTrace tr).blk0 = s.blk0 := rfl
@[simp] theorem State.writeTrace_blk1 (tr : List Block) : (s.writeTrace tr).blk1 = s.blk1 := rfl
@[simp] theorem State.writeTrace_key (tr : List Block) : (s.writeTrace tr).key = s.key := rfl
@[simp] theorem State.writeTrace_trace (tr : List Block) :
    (s.writeTrace tr).trace = tr ++ s.trace.drop tr.length :=
  rfl
@[simp] theorem State.writeTrace_buf (tr : List Block) : (s.writeTrace tr).buf = s.buf := rfl
@[simp] theorem State.writeTrace_curcmd (tr : List Block) : (s.writeTrace tr).curcmd = s.curcmd := rfl
@[simp] theorem State.writeTrace_inputs (tr : List Block) : (s.writeTrace tr).inputs = s.inputs := rfl
@[simp] theorem State.writeTrace_busOut (tr : List Block) : (s.writeTrace tr).busOut = s.busOut := rfl
@[simp] theorem State.writeTrace_draws (tr : List Block) : (s.writeTrace tr).draws = s.draws := rfl

/-! ## The pad (spec/40_padding.md R104) -/

@[simp] theorem State.padMessage_params : (s.padMessage).params = s.params := rfl
@[simp] theorem State.padMessage_cfg : (s.padMessage).cfg = s.cfg := rfl
@[simp] theorem State.padMessage_status : (s.padMessage).status = s.status := rfl
@[simp] theorem State.padMessage_irqen : (s.padMessage).irqen = s.irqen := rfl
@[simp] theorem State.padMessage_keylen : (s.padMessage).keylen = s.keylen := rfl
@[simp] theorem State.padMessage_mlen : (s.padMessage).mlen = BitVec.ofNat 16 s.paddedEnd := rfl
@[simp] theorem State.padMessage_trcnt : (s.padMessage).trcnt = s.trcnt := rfl
@[simp] theorem State.padMessage_blk0 : (s.padMessage).blk0 = s.blk0 := rfl
@[simp] theorem State.padMessage_blk1 : (s.padMessage).blk1 = s.blk1 := rfl
@[simp] theorem State.padMessage_key : (s.padMessage).key = s.key := rfl
@[simp] theorem State.padMessage_trace : (s.padMessage).trace = s.trace := rfl
@[simp] theorem State.padMessage_buf :
    (s.padMessage).buf = s.buf.writeBytes s.mlen.toNat (padBytes s.mlen.toNat) :=
  rfl
@[simp] theorem State.padMessage_curcmd : (s.padMessage).curcmd = s.curcmd := rfl
@[simp] theorem State.padMessage_inputs : (s.padMessage).inputs = s.inputs := rfl
@[simp] theorem State.padMessage_busOut : (s.padMessage).busOut = s.busOut := rfl
@[simp] theorem State.padMessage_draws : (s.padMessage).draws = s.draws := rfl

/-! ## The strip (spec/40_padding.md R106) -/

@[simp] theorem State.unpadMessage_params : (s.unpadMessage).params = s.params := rfl
@[simp] theorem State.unpadMessage_cfg : (s.unpadMessage).cfg = s.cfg := rfl
@[simp] theorem State.unpadMessage_status :
    (s.unpadMessage).status = { s.status with padv := (unpadSeq s.message).2 } :=
  rfl
@[simp] theorem State.unpadMessage_irqen : (s.unpadMessage).irqen = s.irqen := rfl
@[simp] theorem State.unpadMessage_keylen : (s.unpadMessage).keylen = s.keylen := rfl
@[simp] theorem State.unpadMessage_mlen : (s.unpadMessage).mlen = BitVec.ofNat 16 (unpadSeq s.message).1.length := rfl
@[simp] theorem State.unpadMessage_trcnt : (s.unpadMessage).trcnt = s.trcnt := rfl
@[simp] theorem State.unpadMessage_blk0 : (s.unpadMessage).blk0 = s.blk0 := rfl
@[simp] theorem State.unpadMessage_blk1 : (s.unpadMessage).blk1 = s.blk1 := rfl
@[simp] theorem State.unpadMessage_key : (s.unpadMessage).key = s.key := rfl
@[simp] theorem State.unpadMessage_trace : (s.unpadMessage).trace = s.trace := rfl
@[simp] theorem State.unpadMessage_buf : (s.unpadMessage).buf = s.buf := rfl
@[simp] theorem State.unpadMessage_curcmd : (s.unpadMessage).curcmd = s.curcmd := rfl
@[simp] theorem State.unpadMessage_inputs : (s.unpadMessage).inputs = s.inputs := rfl
@[simp] theorem State.unpadMessage_busOut : (s.unpadMessage).busOut = s.busOut := rfl
@[simp] theorem State.unpadMessage_draws : (s.unpadMessage).draws = s.draws := rfl

/-! ## Ecb (spec/43_multiblock.md R160) -/

@[simp] theorem State.ecb_params (dir : Dir) : (s.ecb dir).params = s.params := rfl
@[simp] theorem State.ecb_cfg (dir : Dir) : (s.ecb dir).cfg = s.cfg := rfl
@[simp] theorem State.ecb_status (dir : Dir) : (s.ecb dir).status = s.status := rfl
@[simp] theorem State.ecb_irqen (dir : Dir) : (s.ecb dir).irqen = s.irqen := rfl
@[simp] theorem State.ecb_keylen (dir : Dir) : (s.ecb dir).keylen = s.keylen := rfl
@[simp] theorem State.ecb_mlen (dir : Dir) : (s.ecb dir).mlen = BitVec.ofNat 16 (ceil8 s.mlen.toNat) := rfl
@[simp] theorem State.ecb_trcnt (dir : Dir) : (s.ecb dir).trcnt = s.trcnt := rfl
@[simp] theorem State.ecb_blk0 (dir : Dir) : (s.ecb dir).blk0 = s.blk0 := rfl
@[simp] theorem State.ecb_blk1 (dir : Dir) : (s.ecb dir).blk1 = s.blk1 := rfl
@[simp] theorem State.ecb_key (dir : Dir) : (s.ecb dir).key = s.key := rfl
@[simp] theorem State.ecb_trace (dir : Dir) : (s.ecb dir).trace = s.trace := rfl
@[simp] theorem State.ecb_buf (dir : Dir) :
    (s.ecb dir).buf = ecbBlocks (fun b => (s.feistelOf b dir).1) (zeroFill s.buf s.mlen.toNat) (ceil8 s.mlen.toNat / 8) :=
  rfl
@[simp] theorem State.ecb_curcmd (dir : Dir) : (s.ecb dir).curcmd = s.curcmd := rfl
@[simp] theorem State.ecb_inputs (dir : Dir) : (s.ecb dir).inputs = s.inputs := rfl
@[simp] theorem State.ecb_busOut (dir : Dir) : (s.ecb dir).busOut = s.busOut := rfl
@[simp] theorem State.ecb_draws (dir : Dir) : (s.ecb dir).draws = s.draws := rfl

/-! ## Reset (spec/70_reset_and_hazards.md R230) -/

@[simp] theorem State.assertReset_params (u : Unspecified) : (s.assertReset u).params = s.params := rfl
@[simp] theorem State.assertReset_cfg (u : Unspecified) :
    (s.assertReset u).cfg = { rounds := 0, var := .identity, opsel := .right } :=
  rfl
@[simp] theorem State.assertReset_status (u : Unspecified) : (s.assertReset u).status = Status.idle := rfl
@[simp] theorem State.assertReset_irqen (u : Unspecified) :
    (s.assertReset u).irqen = { doneie := false, errie := false } :=
  rfl
@[simp] theorem State.assertReset_keylen (u : Unspecified) : (s.assertReset u).keylen = 0 := rfl
@[simp] theorem State.assertReset_mlen (u : Unspecified) : (s.assertReset u).mlen = 0 := rfl
@[simp] theorem State.assertReset_trcnt (u : Unspecified) : (s.assertReset u).trcnt = 0 := rfl
@[simp] theorem State.assertReset_blk0 (u : Unspecified) : (s.assertReset u).blk0 = 0 := rfl
@[simp] theorem State.assertReset_blk1 (u : Unspecified) : (s.assertReset u).blk1 = 0 := rfl
@[simp] theorem State.assertReset_key (u : Unspecified) :
    (s.assertReset u).key = List.replicate s.params.keyWords 0 :=
  rfl
@[simp] theorem State.assertReset_trace (u : Unspecified) : (s.assertReset u).trace = traceOf u.trace := rfl
@[simp] theorem State.assertReset_buf (u : Unspecified) :
    (s.assertReset u).buf = Memory.ofCells s.params.bufBytes u.buf :=
  rfl
@[simp] theorem State.assertReset_curcmd (u : Unspecified) : (s.assertReset u).curcmd = u.curcmd := rfl
@[simp] theorem State.assertReset_inputs (u : Unspecified) : (s.assertReset u).inputs = s.inputs := rfl
@[simp] theorem State.assertReset_busOut (u : Unspecified) : (s.assertReset u).busOut = s.busOut := rfl
@[simp] theorem State.assertReset_draws (u : Unspecified) : (s.assertReset u).draws = s.draws := rfl

/-! ## The effect of ENCB and DECB (spec/42_block_commands.md R140, R141) -/

@[simp] theorem State.blockCommand_params (dir : Dir) (t : Bool) :
    (s.blockCommand dir t).params = s.params := by
  cases t <;> rfl
@[simp] theorem State.blockCommand_cfg (dir : Dir) (t : Bool) :
    (s.blockCommand dir t).cfg = s.cfg := by
  cases t <;> rfl
@[simp] theorem State.blockCommand_status (dir : Dir) (t : Bool) :
    (s.blockCommand dir t).status = s.status := by
  cases t <;> rfl
@[simp] theorem State.blockCommand_irqen (dir : Dir) (t : Bool) :
    (s.blockCommand dir t).irqen = s.irqen := by
  cases t <;> rfl
@[simp] theorem State.blockCommand_keylen (dir : Dir) (t : Bool) :
    (s.blockCommand dir t).keylen = s.keylen := by
  cases t <;> rfl
@[simp] theorem State.blockCommand_mlen (dir : Dir) (t : Bool) :
    (s.blockCommand dir t).mlen = s.mlen := by
  cases t <;> rfl
@[simp] theorem State.blockCommand_trcnt (dir : Dir) (t : Bool) :
    (s.blockCommand dir t).trcnt =
      if t then BitVec.ofNat 8 (s.feistelOf s.blk dir).2.length else s.trcnt := by
  cases t <;> rfl
@[simp] theorem State.blockCommand_blk0 (dir : Dir) (t : Bool) :
    (s.blockCommand dir t).blk0 = leftHalf (s.feistelOf s.blk dir).1 := by
  cases t <;> rfl
@[simp] theorem State.blockCommand_blk1 (dir : Dir) (t : Bool) :
    (s.blockCommand dir t).blk1 = rightHalf (s.feistelOf s.blk dir).1 := by
  cases t <;> rfl
@[simp] theorem State.blockCommand_key (dir : Dir) (t : Bool) :
    (s.blockCommand dir t).key = s.key := by
  cases t <;> rfl
@[simp] theorem State.blockCommand_trace (dir : Dir) (t : Bool) :
    (s.blockCommand dir t).trace =
      if t then (s.feistelOf s.blk dir).2 ++ s.trace.drop (s.feistelOf s.blk dir).2.length else s.trace := by
  cases t <;> rfl
@[simp] theorem State.blockCommand_buf (dir : Dir) (t : Bool) :
    (s.blockCommand dir t).buf = s.buf := by
  cases t <;> rfl
@[simp] theorem State.blockCommand_curcmd (dir : Dir) (t : Bool) :
    (s.blockCommand dir t).curcmd = s.curcmd := by
  cases t <;> rfl
@[simp] theorem State.blockCommand_inputs (dir : Dir) (t : Bool) :
    (s.blockCommand dir t).inputs = s.inputs := by
  cases t <;> rfl
@[simp] theorem State.blockCommand_busOut (dir : Dir) (t : Bool) :
    (s.blockCommand dir t).busOut = s.busOut := by
  cases t <;> rfl
@[simp] theorem State.blockCommand_draws (dir : Dir) (t : Bool) :
    (s.blockCommand dir t).draws = s.draws := by
  cases t <;> rfl

/-! ## Read (spec/44_control.md R181): only the bus answer and the count of draws move -/

@[simp] theorem State.hostRead_params (off : Nat) : (s.hostRead off).params = s.params := by
  unfold State.hostRead; dsimp only; split <;> rfl
@[simp] theorem State.hostRead_cfg (off : Nat) : (s.hostRead off).cfg = s.cfg := by
  unfold State.hostRead; dsimp only; split <;> rfl
@[simp] theorem State.hostRead_status (off : Nat) : (s.hostRead off).status = s.status := by
  unfold State.hostRead; dsimp only; split <;> rfl
@[simp] theorem State.hostRead_irqen (off : Nat) : (s.hostRead off).irqen = s.irqen := by
  unfold State.hostRead; dsimp only; split <;> rfl
@[simp] theorem State.hostRead_keylen (off : Nat) : (s.hostRead off).keylen = s.keylen := by
  unfold State.hostRead; dsimp only; split <;> rfl
@[simp] theorem State.hostRead_mlen (off : Nat) : (s.hostRead off).mlen = s.mlen := by
  unfold State.hostRead; dsimp only; split <;> rfl
@[simp] theorem State.hostRead_trcnt (off : Nat) : (s.hostRead off).trcnt = s.trcnt := by
  unfold State.hostRead; dsimp only; split <;> rfl
@[simp] theorem State.hostRead_blk0 (off : Nat) : (s.hostRead off).blk0 = s.blk0 := by
  unfold State.hostRead; dsimp only; split <;> rfl
@[simp] theorem State.hostRead_blk1 (off : Nat) : (s.hostRead off).blk1 = s.blk1 := by
  unfold State.hostRead; dsimp only; split <;> rfl
@[simp] theorem State.hostRead_key (off : Nat) : (s.hostRead off).key = s.key := by
  unfold State.hostRead; dsimp only; split <;> rfl
@[simp] theorem State.hostRead_trace (off : Nat) : (s.hostRead off).trace = s.trace := by
  unfold State.hostRead; dsimp only; split <;> rfl
@[simp] theorem State.hostRead_buf (off : Nat) : (s.hostRead off).buf = s.buf := by
  unfold State.hostRead; dsimp only; split <;> rfl
@[simp] theorem State.hostRead_curcmd (off : Nat) : (s.hostRead off).curcmd = s.curcmd := by
  unfold State.hostRead; dsimp only; split <;> rfl
@[simp] theorem State.hostRead_inputs (off : Nat) : (s.hostRead off).inputs = s.inputs := by
  unfold State.hostRead; dsimp only; split <;> rfl

end

/-! ## Status -/

section
variable (st : Status)

@[simp] theorem Status.accepted_busy : (st.accepted).busy = true := rfl
@[simp] theorem Status.accepted_done : (st.accepted).done = false := rfl
@[simp] theorem Status.accepted_err : (st.accepted).err = false := rfl
@[simp] theorem Status.accepted_wign : (st.accepted).wign = st.wign := rfl
@[simp] theorem Status.accepted_padv : (st.accepted).padv = st.padv := rfl
@[simp] theorem Status.accepted_errcode : (st.accepted).errcode = .none := rfl

@[simp] theorem Status.completed_busy : (st.completed).busy = false := rfl
@[simp] theorem Status.completed_done : (st.completed).done = true := rfl
@[simp] theorem Status.completed_err : (st.completed).err = st.err := rfl
@[simp] theorem Status.completed_wign : (st.completed).wign = st.wign := rfl
@[simp] theorem Status.completed_padv : (st.completed).padv = st.padv := rfl
@[simp] theorem Status.completed_errcode : (st.completed).errcode = st.errcode := rfl

@[simp] theorem Status.failed_busy (e : ErrCode) : (st.failed e).busy = false := rfl
@[simp] theorem Status.failed_done (e : ErrCode) : (st.failed e).done = st.done := rfl
@[simp] theorem Status.failed_err (e : ErrCode) : (st.failed e).err = true := rfl
@[simp] theorem Status.failed_wign (e : ErrCode) : (st.failed e).wign = st.wign := rfl
@[simp] theorem Status.failed_padv (e : ErrCode) : (st.failed e).padv = st.padv := rfl
@[simp] theorem Status.failed_errcode (e : ErrCode) : (st.failed e).errcode = e := rfl

@[simp] theorem Status.ignored_busy : (st.ignored).busy = st.busy := rfl
@[simp] theorem Status.ignored_done : (st.ignored).done = st.done := rfl
@[simp] theorem Status.ignored_err : (st.ignored).err = st.err := rfl
@[simp] theorem Status.ignored_wign : (st.ignored).wign = true := rfl
@[simp] theorem Status.ignored_padv : (st.ignored).padv = st.padv := rfl
@[simp] theorem Status.ignored_errcode : (st.ignored).errcode = st.errcode := rfl

@[simp] theorem Status.clear_busy (v : Word) : (st.clear v).busy = st.busy := rfl
@[simp] theorem Status.clear_done (v : Word) : (st.clear v).done = if v.getLsbD 1 then false else st.done := rfl
@[simp] theorem Status.clear_err (v : Word) : (st.clear v).err = if v.getLsbD 2 then false else st.err := rfl
@[simp] theorem Status.clear_wign (v : Word) : (st.clear v).wign = if v.getLsbD 3 then false else st.wign := rfl
@[simp] theorem Status.clear_padv (v : Word) : (st.clear v).padv = st.padv := rfl
@[simp] theorem Status.clear_errcode (v : Word) : (st.clear v).errcode = if v.getLsbD 2 then .none else st.errcode := rfl

end

end Sys2Proof.Machine
end

