-- ==== Sys2Proof/Laws/Commands.lean ====
section
/-! SUPPORT. What a command can do, said once: the error checks as conditions on the state, the three ways in which
`runCommand` ends, and the form of each meaning. -/

namespace Sys2Proof.Machine

/-! ## The checks -/

theorem keyError_eq_none {s : State} : s.keyError = none ↔ s.KeyLegal := by
  have h0 : s.keylen = 0 ↔ s.keylen.toNat = 0 := by
    constructor
    · intro h; simp [h]
    · intro h; exact BitVec.eq_of_toNat_eq (by simpa using h)
  unfold State.keyError State.KeyLegal
  split
  · next h =>
    have := h0.mp h
    constructor
    · intro h; simp at h
    · intro _; omega
  · split
    · constructor
      · intro h; simp at h
      · intro h; omega
    · next h _ =>
      have := mt h0.mpr h
      constructor
      · intro _; omega
      · intro _; rfl

theorem mlenError_eq_none {s : State} : s.mlenError = none ↔ s.MsgFits := by
  unfold State.mlenError State.MsgFits
  split
  · constructor
    · intro h; simp at h
    · intro h; omega
  · constructor
    · intro _; omega
    · intro _; rfl

theorem overflowError_eq_none {s : State} : s.overflowError = none ↔ s.PaddedFits := by
  unfold State.overflowError State.PaddedFits padLen
  split
  · constructor
    · intro h; simp at h
    · intro h; omega
  · constructor
    · intro _; omega
    · intro _; rfl

theorem keyError_of_empty {s : State} (h : s.keylen.toNat = 0) : s.keyError = some .keyEmpty := by
  have : s.keylen = 0 := BitVec.eq_of_toNat_eq (by simpa using h)
  simp [State.keyError, this]

theorem keyError_of_range {s : State} (h : s.params.keyMaxBits < s.keylen.toNat) :
    s.keyError = some .keyRange := by
  have : s.keylen ≠ 0 := by intro h0; simp [h0] at h
  rw [State.keyError, if_neg this, if_pos h]

theorem mlenError_of_range {s : State} (h : s.params.bufBytes < s.mlen.toNat) : s.mlenError = some .mlenRange := by
  simp [State.mlenError, h]

/-! ## runCommand -/

@[simp] theorem runCommand_some (e : ErrCode) (reach : Nat) (effect : State → State) (s : State) :
    runCommand (some e) reach effect s = .next (s.completeError e) := rfl

theorem runCommand_none {reach : Nat} {effect : State → State} {s : State} (h : reach ≤ s.params.bufBytes) :
    runCommand none reach effect s = .next (effect s).complete := by
  simp [runCommand, Nat.not_lt.mpr h]

/-- Everything `runCommand` can do when it answers a next state. -/
theorem runCommand_next {error : Option ErrCode} {reach : Nat} {effect : State → State} {s t : State}
    (h : runCommand error reach effect s = .next t) :
    (∃ e, error = some e ∧ t = s.completeError e) ∨
      (error = none ∧ reach ≤ s.params.bufBytes ∧ t = (effect s).complete) := by
  cases error with
  | some e => exact .inl ⟨e, rfl, by simpa using h.symm⟩
  | none =>
    simp only [runCommand] at h
    split at h
    · cases h
    · next hr => exact .inr ⟨rfl, by omega, by simpa using h.symm⟩

/-- `runCommand` never refuses. -/
theorem runCommand_ne_refused {error : Option ErrCode} {reach : Nat} {effect : State → State} {s : State}
    {r : Refusal} : runCommand error reach effect s ≠ .refused r := by
  cases error with
  | some e => simp
  | none => simp only [runCommand]; split <;> simp

/-! ## The parts of a command, for statements over all commands -/

/-- The error check of a command. -/
def commandCheck : Instr → State → Option ErrCode
  | .nop, _ => none
  | .encb _, s => s.keyError
  | .decb _, s => s.keyError
  | .pad, s => s.mlenError <|> s.overflowError
  | .unpad, s => s.mlenError
  | .encm, s => s.keyError <|> s.mlenError
  | .decm, s => s.keyError <|> s.mlenError
  | .enc, s => s.keyError <|> s.mlenError <|> s.overflowError
  | .dec, s => s.keyError <|> s.mlenError

/-- The end of the BUF bytes that a command touches. -/
def commandReach : Instr → State → Nat
  | .nop, _ => 0
  | .encb _, _ => 0
  | .decb _, _ => 0
  | .pad, s => s.paddedEnd
  | .unpad, s => s.mlen.toNat
  | .encm, s => ceil8 s.mlen.toNat
  | .decm, s => ceil8 s.mlen.toNat
  | .enc, s => s.paddedEnd
  | .dec, s => ceil8 s.mlen.toNat

/-- The effect of a command without error. -/
def commandEffect : Instr → State → State
  | .nop, s => s
  | .encb t, s => s.blockCommand .enc t
  | .decb t, s => s.blockCommand .dec t
  | .pad, s => s.padMessage
  | .unpad, s => s.unpadMessage
  | .encm, s => s.ecb .enc
  | .decm, s => s.ecb .dec
  | .enc, s => s.padMessage.ecb .enc
  | .dec, s => (s.ecb .dec).unpadMessage

/-- Every command is its check, its effect and a completion. -/
theorem exec_eq_runCommand (i : Instr) (s : State) :
    exec i s = runCommand (commandCheck i s) (commandReach i s) (commandEffect i) s := by
  cases i <;> rfl

/-- No command refuses. -/
theorem exec_ne_refused (i : Instr) (s : State) (r : Refusal) : exec i s ≠ .refused r := by
  rw [exec_eq_runCommand]
  exact runCommand_ne_refused

/-- Everything a command can do when it answers a next state. -/
theorem exec_next {i : Instr} {s t : State} (h : exec i s = .next t) :
    (∃ e, commandCheck i s = some e ∧ t = s.completeError e) ∨
      (commandCheck i s = none ∧ commandReach i s ≤ s.params.bufBytes ∧ t = (commandEffect i s).complete) := by
  rw [exec_eq_runCommand] at h
  exact runCommand_next h

/-- Registers that the host alone configures, and the model's own fields: no effect writes them. -/
theorem effect_frame (i : Instr) (s : State) :
    (commandEffect i s).params = s.params ∧ (commandEffect i s).cfg = s.cfg ∧ (commandEffect i s).irqen = s.irqen ∧
    (commandEffect i s).keylen = s.keylen ∧ (commandEffect i s).key = s.key ∧ (commandEffect i s).curcmd = s.curcmd ∧
    (commandEffect i s).inputs = s.inputs ∧ (commandEffect i s).busOut = s.busOut ∧ (commandEffect i s).draws = s.draws := by
  cases i <;> simp [commandEffect]

end Sys2Proof.Machine
end

