-- ==== Sys2Proof/Laws/Step.lean ====
section
/-! SUPPORT. Everything a step can do, said once (spec/60_exceptions.md R201, spec/70_reset_and_hazards.md R230). -/

namespace Sys2Proof.Machine

theorem atOffset_next {off : Nat} {s t : State} (h : atOffset off s = .next t) : off < Config.aperture ∧ t = s := by
  unfold atOffset at h
  split at h
  · next ho => exact ⟨ho, by simpa using h.symm⟩
  · cases h

theorem atOffset_of_lt {off : Nat} (h : off < Config.aperture) (s : State) : atOffset off s = .next s := if_pos h

/-- The six ways in which a step gives a next state: the engine is idle, it completes a legal or an illegal word, the
host reads, the host writes, reset is asserted. -/
theorem step_next {s t : State} (h : step s = .next t) :
    (∃ rest, s.EngineNext rest ∧ s.status.busy = false ∧ t = s.withInputs rest) ∨
    (∃ rest i, s.EngineNext rest ∧ s.status.busy = true ∧ decode s.curcmd = .ok i ∧
      exec i (s.withInputs rest) = .next t) ∨
    (∃ rest e, s.EngineNext rest ∧ s.status.busy = true ∧ decode s.curcmd = .error e ∧
      t = (s.withInputs rest).completeError .illCmd) ∨
    (∃ off rest, s.inputs = .read off :: rest ∧ off < Config.aperture ∧ t = (s.withInputs rest).hostRead off) ∨
    (∃ off v rest, s.inputs = .write off v :: rest ∧ off < Config.aperture ∧
      t = (s.withInputs rest).hostWrite off v) ∨
    (∃ u rest, s.inputs = .reset u :: rest ∧ t = (s.withInputs rest).assertReset u) := by
  have engine : ∀ rest, s.EngineNext rest → engineTurn (s.withInputs rest) = .next t →
      (∃ rest, s.EngineNext rest ∧ s.status.busy = false ∧ t = s.withInputs rest) ∨
      (∃ rest i, s.EngineNext rest ∧ s.status.busy = true ∧ decode s.curcmd = .ok i ∧
        exec i (s.withInputs rest) = .next t) ∨
      (∃ rest e, s.EngineNext rest ∧ s.status.busy = true ∧ decode s.curcmd = .error e ∧
        t = (s.withInputs rest).completeError .illCmd) := by
    intro rest hn he
    unfold engineTurn at he
    split at he
    · next hb =>
      simp only [completeCommand, State.withInputs_curcmd] at he
      cases hd : decode s.curcmd with
      | ok i => exact .inr (.inl ⟨rest, i, hn, hb, rfl, by simpa [runDecoded, hd] using he⟩)
      | error e => exact .inr (.inr ⟨rest, e, hn, hb, rfl, by simpa [runDecoded, hd] using he.symm⟩)
    · next hb => exact .inl ⟨rest, hn, by simpa using hb, by simpa using he.symm⟩
  simp only [step, takeStep] at h
  cases hq : s.inputs with
  | nil =>
    rw [hq] at h
    rcases engine [] (.inr ⟨hq, rfl⟩) h with h | h | h
    exacts [.inl h, .inr (.inl h), .inr (.inr (.inl h))]
  | cons e rest =>
    rw [hq] at h
    cases e with
    | read off => exact .inr (.inr (.inr (.inl ⟨off, rest, rfl, atOffset_next h⟩)))
    | write off v => exact .inr (.inr (.inr (.inr (.inl ⟨off, v, rest, rfl, atOffset_next h⟩))))
    | engine =>
      rcases engine rest (.inl hq) h with h | h | h
      exacts [.inl h, .inr (.inl h), .inr (.inr (.inl h))]
    | reset u => exact .inr (.inr (.inr (.inr (.inr ⟨u, rest, rfl, by simpa [takeEvent] using h.symm⟩))))

/-- The engine's turn, when it is next to move. -/
theorem step_of_engineNext {s : State} {rest : List Event} (h : s.EngineNext rest) :
    step s = engineTurn (s.withInputs rest) := by
  rcases h with h | ⟨h, rfl⟩ <;> simp [step, takeStep, h, takeEvent]

theorem step_of_read {s : State} {off : Nat} {rest : List Event} (h : s.inputs = .read off :: rest)
    (ho : off < Config.aperture) : step s = .next ((s.withInputs rest).hostRead off) := by
  simp [step, takeStep, h, takeEvent, atOffset, ho]

theorem step_of_write {s : State} {off : Nat} {v : Word} {rest : List Event} (h : s.inputs = .write off v :: rest)
    (ho : off < Config.aperture) : step s = .next ((s.withInputs rest).hostWrite off v) := by
  simp [step, takeStep, h, takeEvent, atOffset, ho]

theorem step_of_reset {s : State} {u : Unspecified} {rest : List Event} (h : s.inputs = .reset u :: rest) :
    step s = .next ((s.withInputs rest).assertReset u) := by
  simp [step, takeStep, h, takeEvent]

end Sys2Proof.Machine
end

