-- ==== Sys2Proof/Laws/Bus.lean ====
section
/-! SUPPORT. The register map as a table (spec/10_state.md R22) and everything a host write can do
(spec/44_control.md R182), said once. -/

namespace Sys2Proof.Machine

/-! ## The register map -/

theorem keyWords_le {c : Config} (h : c.Legal) : c.keyWords ≤ 16 := by
  simp only [Config.keyWords, Config.Legal] at *; omega

theorem targetAt_low {c : Config} {w : Nat} (h : w < 0x100) : targetAt c w = lowTarget w := if_pos h

theorem targetAt_key {c : Config} (h : c.Legal) {k w : Nat} (hk : k < c.keyWords) (hw : w = 0x100 + 4 * k) :
    targetAt c w = .key k := by
  have := keyWords_le h
  unfold targetAt
  rw [if_neg (by omega), if_pos (by omega), if_pos (by omega)]
  congr 1; omega

theorem targetAt_traceHi {c : Config} {j w : Nat} (hj : j < 255) (hw : w = 0x1000 + 8 * j) :
    targetAt c w = .traceHi j := by
  unfold targetAt
  rw [if_neg (by omega), if_neg (by omega), if_pos (by omega), if_pos (by simp [Config.traceDepth]; omega),
    if_pos (by omega)]
  congr 1; omega

theorem targetAt_traceLo {c : Config} {j w : Nat} (hj : j < 255) (hw : w = 0x1004 + 8 * j) :
    targetAt c w = .traceLo j := by
  unfold targetAt
  rw [if_neg (by omega), if_neg (by omega), if_pos (by omega), if_pos (by simp [Config.traceDepth]; omega),
    if_neg (by omega)]
  congr 1; omega

theorem targetAt_buf {c : Config} {a w : Nat} (ha : a < c.bufBytes) (hw : w = 0x2000 + a) :
    targetAt c w = .buf a := by
  unfold targetAt
  rw [if_neg (by omega), if_neg (by omega), if_neg (by omega), if_pos (by omega)]
  rw [show w - 0x2000 = a by omega]

theorem targetAt_reserved {c : Config} (hl : c.Legal) {w : Nat} (h4 : w % 4 = 0)
    (h : w = 0x024 ∨ (0x030 ≤ w ∧ w < 0x100) ∨ (0x100 + 4 * c.keyWords ≤ w ∧ w < 0x1000) ∨
      (0x17F8 ≤ w ∧ w < 0x2000) ∨ 0x2000 + c.bufBytes ≤ w) : targetAt c w = .reserved := by
  have := keyWords_le hl
  rcases h with h | h | h | h | h
  · subst h; rw [targetAt_low (by omega)]; rfl
  · rw [targetAt_low (by omega)]; unfold lowTarget; split <;> first | omega | rfl
  · unfold targetAt; rw [if_neg (by omega), if_pos (by omega), if_neg (by omega)]
  · unfold targetAt
    rw [if_neg (by omega), if_neg (by omega), if_pos (by omega), if_neg (by simp [Config.traceDepth]; omega)]
  · unfold targetAt; rw [if_neg (by omega), if_neg (by omega), if_neg (by omega), if_neg (by omega)]

/-- A word of BUF lies inside BUF. -/
theorem of_targetAt_buf {c : Config} {w a : Nat} (h : targetAt c w = .buf a) :
    0x2000 ≤ w ∧ w < 0x2000 + c.bufBytes ∧ a = w - 0x2000 := by
  have low : ∀ w a : Nat, lowTarget w ≠ .buf a := fun w a => by unfold lowTarget; split <;> simp
  unfold targetAt at h
  split at h
  · exact absurd h (low _ _)
  · split at h
    · split at h <;> cases h
    · split at h
      · split at h
        · split at h <;> cases h
        · cases h
      · split at h
        · injection h with h; omega
        · cases h

/-- Where CMD, STATUS, BLK0 and BLK1 are, and that they are nowhere else. -/
theorem offset_of_targetAt (c : Config) (w : Nat) :
    (targetAt c w = .cmd → w = 0x00C) ∧ (targetAt c w = .status → w = 0x010) ∧
    (targetAt c w = .blk0 → w = 0x028) ∧ (targetAt c w = .blk1 → w = 0x02C) := by
  unfold targetAt
  split
  · unfold lowTarget; split <;> simp
  · split
    · split <;> simp
    · split
      · split
        · split <;> simp
        · simp
      · split <;> simp

@[simp] theorem wordOffset_wordOffset (off : Nat) : wordOffset (wordOffset off) = wordOffset off := by
  unfold wordOffset; omega

theorem wordOffset_mod (off : Nat) : wordOffset off % 4 = 0 := by unfold wordOffset; omega

/-! ## Transactions -/

theorem step_of_read_idle {s : State} {off : Nat} {rest : List Event} (hq : s.inputs = .read off :: rest)
    (hb : s.status.busy = false) (ho : off < Config.aperture) :
    step s = .next { s with
      inputs := rest, busOut := some (s.readTarget (targetAt s.params (wordOffset off))) } := by
  rw [step_of_read hq ho]
  simp only [State.hostRead, State.withInputs_status, hb]
  rfl

theorem step_of_read_busy {s : State} {off : Nat} {rest : List Event} (hq : s.inputs = .read off :: rest)
    (hb : s.status.busy = true) (ho : off < Config.aperture) :
    step s = .next { s with
      inputs := rest, busOut := some (s.readBusy (targetAt s.params (wordOffset off))), draws := s.draws + 1 } := by
  rw [step_of_read hq ho]
  simp only [State.hostRead, State.withInputs_status, hb]
  rfl

theorem step_of_write_idle {s : State} {off : Nat} {v : Word} {rest : List Event}
    (hq : s.inputs = .write off v :: rest) (hb : s.status.busy = false) (ho : off < Config.aperture) :
    step s = .next ((s.withInputs rest).writeTarget (targetAt s.params (wordOffset off)) v) := by
  rw [step_of_write hq ho]
  simp only [State.hostWrite, State.withInputs_status, hb, Bool.false_and]
  rfl

theorem step_of_write_busy {s : State} {off : Nat} {v : Word} {rest : List Event}
    (hq : s.inputs = .write off v :: rest) (hb : s.status.busy = true) (ho : off < Config.aperture) :
    step s = .next (if (targetAt s.params (wordOffset off)).isInput then
      { s.withInputs rest with status := s.status.ignored }
      else (s.withInputs rest).writeTarget (targetAt s.params (wordOffset off)) v) := by
  rw [step_of_write hq ho]
  simp only [State.hostWrite, State.withInputs_status, hb, Bool.true_and]
  rfl

/-- Everything a host write can do: it is ignored, it accepts a command, it clears STATUS bits, or it leaves STATUS,
CURCMD, TRACE, TRCNT and the parameters alone. -/
theorem hostWrite_cases (s : State) (off : Nat) (v : Word) :
    (s.status.busy = true ∧ s.hostWrite off v = { s with status := s.status.ignored }) ∨
    (s.status.busy = false ∧ wordOffset off = 0x00C ∧ s.hostWrite off v = s.accept v) ∨
    (wordOffset off = 0x010 ∧ s.hostWrite off v = { s with status := s.status.clear v }) ∨
    ((s.hostWrite off v).status = s.status ∧ (s.hostWrite off v).curcmd = s.curcmd ∧
      (s.hostWrite off v).trace = s.trace ∧ (s.hostWrite off v).trcnt = s.trcnt ∧
      (s.hostWrite off v).params = s.params ∧
      ((s.hostWrite off v).blk0 ≠ s.blk0 ∨ (s.hostWrite off v).blk1 ≠ s.blk1 →
        s.status.busy = false ∧ (wordOffset off = 0x028 ∨ wordOffset off = 0x02C)) ∧
      (s.status.busy = true → ∃ e, s.hostWrite off v = { s with irqen := e })) := by
  unfold State.hostWrite
  have key := offset_of_targetAt s.params (wordOffset off)
  dsimp only
  by_cases hb : s.status.busy = true
  · by_cases hin : (targetAt s.params (wordOffset off)).isInput = true
    · simp [hb, hin]
    · simp only [hb, hin, Bool.and_false, Bool.false_eq_true, if_false]
      right; right
      cases ht : targetAt s.params (wordOffset off) <;> rw [ht] at key hin <;> simp [Target.isInput] at hin <;>
        simp_all [State.writeTarget]
      all_goals exact .inr ⟨s.irqen, rfl⟩
  · have hb' : s.status.busy = false := by simpa using hb
    simp only [hb', Bool.false_and, Bool.false_eq_true, if_false]
    right
    cases ht : targetAt s.params (wordOffset off) <;> rw [ht] at key <;> simp_all [State.writeTarget]

end Sys2Proof.Machine
end

