-- ==== Sys2Proof/Laws/Memory.lean ====
section
/-! SUPPORT. What the buffer operations do: read after write, the canonical form, and the multi-byte accesses of
spec/00_scope.md R12. -/

namespace Sys2Proof.Machine

/-- Every listed address is below `size`. -/
abbrev Memory.Below (size : Nat) (m : Memory) : Prop := ∀ c ∈ m.cells, c.1 < size

/-! ## One byte -/

theorem readCell_of_lt {cells : List Host.Cell} {a : Nat} (h : ∀ c ∈ cells, a < c.1) :
    readCell cells a = Memory.unwritten := by
  cases cells with
  | nil => rfl
  | cons c rest => simp [readCell, h c (by simp)]

theorem mem_consCell {a : Nat} {v : Byte} {rest : List Host.Cell} {c : Host.Cell}
    (h : c ∈ consCell a v rest) : c = (a, v) ∨ c ∈ rest := by
  unfold consCell at h
  split at h
  · exact .inr h
  · simpa using h

theorem mem_writeCell {cells : List Host.Cell} {a : Nat} {v : Byte} {c : Host.Cell}
    (h : c ∈ writeCell cells a v) : c = (a, v) ∨ c ∈ cells := by
  induction cells with
  | nil => simpa using mem_consCell h
  | cons d rest ih =>
    obtain ⟨k, w⟩ := d
    simp only [writeCell] at h
    split at h
    · exact mem_consCell h
    · split at h
      · rcases mem_consCell h with h | h
        · exact .inl h
        · exact .inr (by simp [h])
      · rcases List.mem_cons.mp h with h | h
        · exact .inr (by simp [h])
        · rcases ih h with h | h
          · exact .inl h
          · exact .inr (by simp [h])

theorem readCell_consCell_self {a : Nat} {v : Byte} {rest : List Host.Cell} (h : ∀ c ∈ rest, a < c.1) :
    readCell (consCell a v rest) a = v := by
  unfold consCell
  split
  · next hv => rw [readCell_of_lt h, hv]
  · simp [readCell]

theorem readCell_consCell_of_ne {a b : Nat} {v : Byte} {rest : List Host.Cell} (h : ∀ c ∈ rest, a < c.1)
    (hb : b ≠ a) : readCell (consCell a v rest) b = readCell rest b := by
  unfold consCell
  split
  · rfl
  · simp only [readCell]
    split
    · next hlt => rw [readCell_of_lt fun c hc => lt_trans hlt (h c hc)]
    · rfl

theorem readCell_writeCell {cells : List Host.Cell} (hs : cells.Pairwise (fun x y => x.1 < y.1))
    (a b : Nat) (v : Byte) :
    readCell (writeCell cells a v) b = if b = a then v else readCell cells b := by
  induction cells with
  | nil =>
    by_cases hb : b = a
    · simp only [writeCell, hb, ↓reduceIte]; exact readCell_consCell_self (by simp)
    · simp only [writeCell, hb, ↓reduceIte]; exact readCell_consCell_of_ne (by simp) hb
  | cons d rest ih =>
    obtain ⟨k, w⟩ := d
    obtain ⟨hk, hrest⟩ := List.pairwise_cons.mp hs
    simp only [writeCell]
    split
    · next hak =>
      have hall : ∀ c ∈ (k, w) :: rest, a < c.1 := by
        intro c hc
        rcases List.mem_cons.mp hc with rfl | hc
        · exact hak
        · exact lt_trans hak (hk c hc)
      by_cases hb : b = a
      · rw [hb, if_pos rfl, readCell_consCell_self hall]
      · rw [if_neg hb, readCell_consCell_of_ne hall hb]
    · next hak =>
      split
      · next hak' =>
        subst hak'
        by_cases hb : b = a
        · rw [hb, if_pos rfl, readCell_consCell_self hk]
        · rw [if_neg hb, readCell_consCell_of_ne hk hb]
          simp only [readCell]
          split
          · next hlt => exact readCell_of_lt fun c hc => lt_trans hlt (hk c hc)
          · rfl
      · next hak' =>
        simp only [readCell, ih hrest]
        by_cases hb : b = a
        · subst hb; simp [hak, hak']
        · simp [hb]

theorem pairwise_writeCell {cells : List Host.Cell} (hs : cells.Pairwise (fun x y => x.1 < y.1))
    (a : Nat) (v : Byte) : (writeCell cells a v).Pairwise (fun x y => x.1 < y.1) := by
  have cons_ok : ∀ rest : List Host.Cell, rest.Pairwise (fun x y => x.1 < y.1) → (∀ c ∈ rest, a < c.1) →
      (consCell a v rest).Pairwise (fun x y => x.1 < y.1) := by
    intro rest hr h
    unfold consCell
    split
    · exact hr
    · exact List.pairwise_cons.mpr ⟨h, hr⟩
  induction cells with
  | nil => exact cons_ok [] .nil (by simp)
  | cons d rest ih =>
    obtain ⟨k, w⟩ := d
    obtain ⟨hk, hrest⟩ := List.pairwise_cons.mp hs
    simp only [writeCell]
    split
    · next hak =>
      refine cons_ok _ hs fun c hc => ?_
      rcases List.mem_cons.mp hc with rfl | hc
      · exact hak
      · exact lt_trans hak (hk c hc)
    · split
      · next hak' => subst hak'; exact cons_ok _ hrest hk
      · next hak hak' =>
        refine List.pairwise_cons.mpr ⟨fun c hc => ?_, ih hrest⟩
        rcases mem_writeCell hc with rfl | hc
        · show k < a
          omega
        · exact hk c hc

theorem written_writeCell {cells : List Host.Cell} (h : ∀ c ∈ cells, c.2 ≠ Memory.unwritten)
    (a : Nat) (v : Byte) : ∀ c ∈ writeCell cells a v, c.2 ≠ Memory.unwritten := by
  have cons_ok : ∀ rest : List Host.Cell, (∀ c ∈ rest, c.2 ≠ Memory.unwritten) →
      ∀ c ∈ consCell a v rest, c.2 ≠ Memory.unwritten := by
    intro rest hr c hc
    unfold consCell at hc
    split at hc
    · exact hr c hc
    · next hv =>
      rcases List.mem_cons.mp hc with rfl | hc
      · exact hv
      · exact hr c hc
  induction cells with
  | nil => exact cons_ok [] (by simp)
  | cons d rest ih =>
    have hrest : ∀ c ∈ rest, c.2 ≠ Memory.unwritten := fun c hc => h c (by simp [hc])
    obtain ⟨k, w⟩ := d
    simp only [writeCell]
    split
    · exact cons_ok _ h
    · split
      · exact cons_ok _ hrest
      · intro c hc
        rcases List.mem_cons.mp hc with rfl | hc
        · exact h _ (by simp)
        · exact ih hrest c hc

namespace Memory

@[simp] theorem read_empty (a : Nat) : Memory.read { cells := [] } a = Memory.unwritten := rfl

theorem wf_empty : Memory.wf { cells := [] } := by simp [Memory.wf]

/-- A write keeps the canonical form. -/
theorem wf_write {m : Memory} (h : m.wf) (a : Nat) (v : Byte) : (m.write a v).wf :=
  ⟨pairwise_writeCell h.1 a v, written_writeCell h.2 a v⟩

/-- Read after write. -/
theorem read_write {m : Memory} (h : m.wf) (a b : Nat) (v : Byte) :
    (m.write a v).read b = if b = a then v else m.read b :=
  readCell_writeCell h.1 a b v

theorem below_write {m : Memory} {size a : Nat} (h : m.Below size) (ha : a < size) (v : Byte) :
    (m.write a v).Below size := by
  intro c hc
  rcases mem_writeCell hc with rfl | hc
  · exact ha
  · exact h c hc

/-! ## Sequences of bytes -/

/-- Writing bytes keeps the canonical form. -/
theorem wf_writeBytes {m : Memory} (h : m.wf) (a : Nat) (bs : List Byte) : (m.writeBytes a bs).wf := by
  induction bs generalizing m a with
  | nil => exact h
  | cons b bs ih => exact ih (wf_write h a b) (a + 1)

theorem below_writeBytes {m : Memory} {size : Nat} (h : m.Below size) (a : Nat) (bs : List Byte)
    (ha : a + bs.length ≤ size) : (m.writeBytes a bs).Below size := by
  induction bs generalizing m a with
  | nil => exact h
  | cons b bs ih =>
    simp only [List.length_cons] at ha
    exact ih (below_write h (by omega) b) (a + 1) (by omega)

/-- What writing bytes does, all of it: byte k of the list lands at a + k, and nothing else changes. -/
theorem read_writeBytes {m : Memory} (h : m.wf) (a : Nat) (bs : List Byte) (x : Nat) :
    (m.writeBytes a bs).read x = if a ≤ x ∧ x < a + bs.length then bs.getD (x - a) 0 else m.read x := by
  induction bs generalizing m a with
  | nil =>
    simp [Memory.writeBytes]
  | cons b bs ih =>
    simp only [Memory.writeBytes, List.length_cons]
    rw [ih (wf_write h a b) (a + 1), read_write h]
    by_cases hx : x = a
    · subst hx
      simp
    · by_cases hin : a + 1 ≤ x ∧ x < a + 1 + bs.length
      · have h2 : a ≤ x ∧ x < a + (bs.length + 1) := by omega
        rw [if_pos hin, if_pos h2]
        obtain ⟨k, hk⟩ : ∃ k, x - a = k + 1 := ⟨x - a - 1, by omega⟩
        rw [hk, show x - (a + 1) = k by omega]
        simp
      · have h2 : ¬ (a ≤ x ∧ x < a + (bs.length + 1)) := by omega
        rw [if_neg hin, if_neg h2, if_neg hx]

@[simp] theorem length_readBytes (m : Memory) (a n : Nat) : (m.readBytes a n).length = n := by
  simp [Memory.readBytes]

theorem getElem_readBytes (m : Memory) (a n k : Nat) (h : k < (m.readBytes a n).length) :
    (m.readBytes a n)[k] = m.read (a + k) := by
  simp [Memory.readBytes]

theorem getElem?_readBytes {m : Memory} {a n k : Nat} (h : k < n) :
    (m.readBytes a n)[k]? = some (m.read (a + k)) := by
  simp [Memory.readBytes, h]

theorem getD_readBytes {m : Memory} {a n k : Nat} (h : k < n) (d : Byte) :
    (m.readBytes a n).getD k d = m.read (a + k) := by
  simp [List.getD_eq_getElem?_getD, getElem?_readBytes h]

theorem readBytes_congr {m m' : Memory} {a n : Nat} (h : ∀ k < n, m.read (a + k) = m'.read (a + k)) :
    m.readBytes a n = m'.readBytes a n := by
  simp only [Memory.readBytes]
  exact List.map_congr_left fun k hk => h k (List.mem_range.mp hk)

theorem readBytes_add (m : Memory) (a n k : Nat) :
    m.readBytes a (n + k) = m.readBytes a n ++ m.readBytes (a + n) k := by
  simp [Memory.readBytes, List.range_add, Nat.add_assoc, Function.comp_def]

/-! ## MemRead and MemWrite -/

theorem memRead_congr {m m' : Memory} {a n : Nat} (h : ∀ k < n, m.read (a + k) = m'.read (a + k)) :
    m.memRead a n = m'.memRead a n := by
  induction n with
  | zero => rfl
  | succ n ih =>
    simp only [Memory.memRead, h n (by omega), ih fun k hk => h k (by omega)]

@[simp] theorem length_bytesOf (n : Nat) (v : BitVec (8 * n)) : (bytesOf n v).length = n := by
  simp [bytesOf]

theorem getD_bytesOf {n k : Nat} (h : k < n) (v : BitVec (8 * n)) (d : Byte) :
    (bytesOf n v).getD k d = v.extractLsb' (8 * (n - k) - 8) 8 := by
  simp [List.getD_eq_getElem?_getD, bytesOf, h]

/-- MemWrite keeps the canonical form. -/
theorem wf_memWrite {m : Memory} (h : m.wf) (a n : Nat) (v : BitVec (8 * n)) : (m.memWrite a n v).wf :=
  wf_writeBytes h a _

theorem below_memWrite {m : Memory} {size : Nat} (h : m.Below size) (a n : Nat) (v : BitVec (8 * n))
    (ha : a + n ≤ size) : (m.memWrite a n v).Below size :=
  below_writeBytes h a _ (by simpa using ha)

/-- What MemWrite does, all of it. -/
theorem read_memWrite {m : Memory} (h : m.wf) (a n : Nat) (v : BitVec (8 * n)) (x : Nat) :
    (m.memWrite a n v).read x =
      if a ≤ x ∧ x < a + n then v.extractLsb' (8 * (n - (x - a)) - 8) 8 else m.read x := by
  unfold Memory.memWrite
  rw [read_writeBytes h, length_bytesOf]
  by_cases hx : a ≤ x ∧ x < a + n
  · rw [if_pos hx, if_pos hx, getD_bytesOf (by omega)]
  · rw [if_neg hx, if_neg hx]

/-- A MemRead of n bytes whose byte k is v[8(n-k)-1 : 8(n-k)-8] gives v. -/
theorem memRead_eq {m : Memory} {a n : Nat} {v : BitVec (8 * n)}
    (h : ∀ k < n, m.read (a + k) = v.extractLsb' (8 * (n - k) - 8) 8) : m.memRead a n = v := by
  induction n with
  | zero => exact BitVec.eq_of_toNat_eq (by simp [Memory.memRead, BitVec.of_length_zero])
  | succ n ih =>
    have hlow := h n (by omega)
    have hhigh : m.memRead a n = v.extractLsb' 8 (8 * n) := by
      refine ih fun k hk => ?_
      rw [h k (by omega)]
      refine BitVec.eq_of_getLsbD_eq fun i hi => ?_
      simp only [BitVec.getLsbD_extractLsb', hi, decide_true, Bool.true_and]
      have hin : 8 * (n - k) - 8 + i < 8 * n := by omega
      simp only [hin, decide_true, Bool.true_and]
      congr 1
      omega
    rw [Memory.memRead, hhigh, hlow]
    refine BitVec.eq_of_getLsbD_eq fun i hi => ?_
    simp only [BitVec.getLsbD_append, BitVec.getLsbD_extractLsb']
    by_cases h8 : i < 8
    · simp [h8]
    · have hin : i - 8 < 8 * n := by omega
      simp only [h8, hin, decide_false, decide_true, Bool.true_and, if_false]
      congr 1
      omega

/-- MemRead after MemWrite at the same place. -/
theorem memRead_memWrite {m : Memory} (h : m.wf) (a n : Nat) (v : BitVec (8 * n)) :
    (m.memWrite a n v).memRead a n = v := by
  refine memRead_eq fun k hk => ?_
  rw [read_memWrite h, if_pos (by omega), Nat.add_sub_cancel_left]

/-! ## Canonical memories are determined by their bytes -/

theorem readCell_of_mem {cells : List Host.Cell} (hs : cells.Pairwise (fun x y => x.1 < y.1)) {c : Host.Cell}
    (hc : c ∈ cells) : readCell cells c.1 = c.2 := by
  induction cells with
  | nil => simp at hc
  | cons d rest ih =>
    obtain ⟨k, w⟩ := d
    obtain ⟨hk, hrest⟩ := List.pairwise_cons.mp hs
    rcases List.mem_cons.mp hc with rfl | hc
    · simp [readCell]
    · have hlt := hk c hc
      simp only at hlt
      have h1 : ¬ c.1 < k := by omega
      have h2 : c.1 ≠ k := by omega
      simp [readCell, h1, h2, ih hrest hc]

theorem mem_of_readCell_ne {cells : List Host.Cell} {a : Nat} (h : readCell cells a ≠ Memory.unwritten) :
    (a, readCell cells a) ∈ cells := by
  induction cells with
  | nil => simp [readCell] at h
  | cons d rest ih =>
    obtain ⟨k, w⟩ := d
    simp only [readCell] at h ⊢
    split at h
    · exact absurd rfl h
    · split at h
      · next h1 h2 => subst h2; simp
      · next h1 h2 => simp [h1, h2, ih h]

theorem cell_mem_iff {m : Memory} (h : m.wf) (c : Host.Cell) :
    c ∈ m.cells ↔ m.read c.1 = c.2 ∧ c.2 ≠ Memory.unwritten := by
  constructor
  · intro hc
    exact ⟨readCell_of_mem h.1 hc, h.2 c hc⟩
  · rintro ⟨h1, h2⟩
    have h3 := mem_of_readCell_ne (cells := m.cells) (a := c.1)
    have h1' : readCell m.cells c.1 = c.2 := h1
    rw [h1'] at h3
    exact h3 h2

/-- Two canonical memories with the same bytes are the same data. -/
theorem ext_read {m m' : Memory} (h : m.wf) (h' : m'.wf) (he : ∀ a, m.read a = m'.read a) : m = m' := by
  have key : ∀ {l l' : List Host.Cell}, l.Pairwise (fun x y => x.1 < y.1) →
      l'.Pairwise (fun x y => x.1 < y.1) → (∀ c, c ∈ l ↔ c ∈ l') → l = l' := by
    intro l l' hl hl' hmem
    have nd : ∀ {l : List Host.Cell}, l.Pairwise (fun x y => x.1 < y.1) → l.Nodup := fun hp =>
      hp.imp fun {x y} hxy => by rintro rfl; omega
    have hperm : l.Perm l' := (List.perm_ext_iff_of_nodup (nd hl) (nd hl')).mpr hmem
    refine hperm.eq_of_pairwise ?_ hl hl'
    intro x y _ _ h1 h2
    omega
  have hc : m.cells = m'.cells := key h.1 h'.1 fun c => by
    rw [cell_mem_iff h, cell_mem_iff h', he]
  cases m; cases m'; simpa using hc

/-! ## A buffer made from given bytes -/

theorem foldl_ofCells (size : Nat) (cells : List Host.Cell) {m : Memory} (h : m.wf ∧ m.Below size) :
    let m' := cells.foldl (fun m c => if c.1 < size then m.write c.1 c.2 else m) m
    m'.wf ∧ m'.Below size := by
  induction cells generalizing m with
  | nil => exact h
  | cons c rest ih =>
    refine ih ?_
    dsimp only
    split
    · next hc => exact ⟨wf_write h.1 _ _, below_write h.2 hc _⟩
    · exact h

theorem wf_ofCells (size : Nat) (cells : List Host.Cell) : (Memory.ofCells size cells).wf :=
  (foldl_ofCells size cells (m := { cells := [] }) ⟨wf_empty, by simp [Memory.Below]⟩).1

theorem below_ofCells (size : Nat) (cells : List Host.Cell) : (Memory.ofCells size cells).Below size :=
  (foldl_ofCells size cells (m := { cells := [] }) ⟨wf_empty, by simp [Memory.Below]⟩).2

end Memory

end Sys2Proof.Machine
end

