-- ==== Sys2Proof/Laws/Feistel.lean ====
section
/-! SUPPORT. Bit strings, halves, the round key window and the shape of the Feistel iteration
(spec/41_round_function.md). -/

namespace Sys2Proof.Machine

/-! ## Bit strings and halves -/

theorem getLsbD_bitString (f : Nat → Bool) (n k : Nat) :
    (bitString f n).getLsbD k = (decide (k < n) && f (n - 1 - k)) := by
  induction n generalizing k with
  | zero => simp [bitString]
  | succ n ih =>
    cases k with
    | zero => simp [bitString]
    | succ k =>
      simp only [bitString, BitVec.getLsbD_concat, Nat.add_one_sub_one, ih, Nat.add_eq_zero_iff, one_ne_zero,
        and_false, if_false]
      congr 1
      · simp
      · congr 1; omega

theorem bitString_congr {f g : Nat → Bool} {n : Nat} (h : ∀ i < n, f i = g i) :
    bitString f n = bitString g n := by
  induction n with
  | zero => rfl
  | succ n ih => simp only [bitString, h n (by omega), ih fun i hi => h i (by omega)]

/-- Bit 31 - i of the round key is key bit (r + i) mod L (R121). -/
theorem getLsbD_roundKey (key : List Word) (l r : Nat) {i : Nat} (hi : i < 32) :
    (roundKey key l r).getLsbD (31 - i) = keyBit key ((r + i) % l) := by
  simp only [roundKey, getLsbD_bitString]
  rw [show 32 - 1 - (31 - i) = i by omega]
  simp
  intro h; omega

/-- Two words with the same bits 31, 30, …, 0 are equal. -/
theorem word_ext {x y : Word} (h : ∀ i < 32, x.getLsbD (31 - i) = y.getLsbD (31 - i)) : x = y := by
  refine BitVec.eq_of_getLsbD_eq fun k hk => ?_
  have := h (31 - k) (by omega)
  rwa [show 31 - (31 - k) = k by omega] at this

@[simp] theorem leftHalf_join (a b : Word) : leftHalf (joinHalves a b) = a := by
  refine BitVec.eq_of_getLsbD_eq fun i hi => ?_
  have h : ¬ 32 + i < 32 := by omega
  simp only [leftHalf, joinHalves, BitVec.getLsbD_extractLsb', BitVec.getLsbD_append, hi, h, decide_true,
    Bool.true_and, if_false, Nat.add_sub_cancel_left]

@[simp] theorem rightHalf_join (a b : Word) : rightHalf (joinHalves a b) = b := by
  refine BitVec.eq_of_getLsbD_eq fun i hi => ?_
  simp only [rightHalf, joinHalves, BitVec.getLsbD_extractLsb', BitVec.getLsbD_append, hi, Nat.zero_add,
    decide_true, Bool.true_and, if_true]

@[simp] theorem join_halves (b : Block) : joinHalves (leftHalf b) (rightHalf b) = b := by
  refine BitVec.eq_of_getLsbD_eq fun i hi => ?_
  simp only [leftHalf, rightHalf, joinHalves, BitVec.getLsbD_append, BitVec.getLsbD_extractLsb']
  by_cases h : i < 32
  · simp [h]
  · have h2 : i - 32 < 32 := by omega
    simp only [h, h2, decide_true, Bool.true_and, decide_false, if_false]
    congr 1; omega

theorem joinHalves_inj {a b c d : Word} (h : joinHalves a b = joinHalves c d) : a = c ∧ b = d :=
  ⟨by simpa using congrArg leftHalf h, by simpa using congrArg rightHalf h⟩

/-! ## The iteration -/

@[simp] theorem runRounds_nil (cfg : CfgReg) (h : Word × Word) : runRounds cfg [] h = (h, []) := rfl

@[simp] theorem runRounds_cons (cfg : CfgReg) (k : Word) (ks : List Word) (h : Word × Word) :
    runRounds cfg (k :: ks) h =
      ((runRounds cfg ks (roundStep cfg k h)).1, emit (roundStep cfg k h) :: (runRounds cfg ks (roundStep cfg k h)).2) :=
  rfl

theorem length_runRounds (cfg : CfgReg) (ks : List Word) (h : Word × Word) :
    (runRounds cfg ks h).2.length = ks.length := by
  induction ks generalizing h with
  | nil => rfl
  | cons k ks ih => simp [ih]

/-- Rounds in two parts: the second part starts from the halves that the first leaves. -/
theorem runRounds_append (cfg : CfgReg) (ks ls : List Word) (h : Word × Word) :
    runRounds cfg (ks ++ ls) h =
      ((runRounds cfg ls (runRounds cfg ks h).1).1,
        (runRounds cfg ks h).2 ++ (runRounds cfg ls (runRounds cfg ks h).1).2) := by
  induction ks generalizing h with
  | nil => rfl
  | cons k ks ih => simp [ih]

/-- The halves after the first i rounds. -/
def halvesAfter (cfg : CfgReg) (ks : List Word) (h : Word × Word) (i : Nat) : Word × Word :=
  (runRounds cfg (ks.take i) h).1

@[simp] theorem halvesAfter_zero (cfg : CfgReg) (ks : List Word) (h : Word × Word) :
    halvesAfter cfg ks h 0 = h := by
  simp [halvesAfter]

theorem halvesAfter_succ (cfg : CfgReg) (ks : List Word) (h : Word × Word) {i : Nat} (hi : i < ks.length) :
    halvesAfter cfg ks h (i + 1) = roundStep cfg ks[i] (halvesAfter cfg ks h i) := by
  rw [halvesAfter, List.take_succ_eq_append_getElem hi, runRounds_append]
  rfl

theorem halvesAfter_length (cfg : CfgReg) (ks : List Word) (h : Word × Word) :
    halvesAfter cfg ks h ks.length = (runRounds cfg ks h).1 := by
  simp [halvesAfter]

theorem getElem?_trace (cfg : CfgReg) (ks : List Word) (h : Word × Word) {i : Nat} (hi : i < ks.length) :
    (runRounds cfg ks h).2[i]? = some (emit (halvesAfter cfg ks h (i + 1))) := by
  induction ks generalizing h i with
  | nil => simp at hi
  | cons k ks ih =>
    cases i with
    | zero => simp [halvesAfter]
    | succ i =>
      simp only [runRounds_cons, List.getElem?_cons_succ]
      rw [ih _ (by simpa using hi)]
      simp [halvesAfter]

@[simp] theorem length_roundKeys (rk : Nat → Word) (dir : Dir) (n : Nat) : (roundKeys rk dir n).length = n := by
  simp [roundKeys]

@[simp] theorem getElem_roundKeys (rk : Nat → Word) (dir : Dir) (n i : Nat) (h : i < (roundKeys rk dir n).length) :
    (roundKeys rk dir n)[i] = rk (roundIndex dir n i) := by
  simp [roundKeys]

theorem roundKeys_dec (rk : Nat → Word) (n : Nat) : roundKeys rk .dec n = (roundKeys rk .enc n).reverse := by
  refine List.ext_getElem (by simp) fun i h1 h2 => ?_
  simp [List.getElem_reverse, roundIndex]

@[simp] theorem feistel_out (cfg : CfgReg) (rk : Nat → Word) (b : Block) (dir : Dir) (n : Nat) :
    (feistel cfg rk b dir n).1 = emit (runRounds cfg (roundKeys rk dir n) (leftHalf b, rightHalf b)).1 := rfl

@[simp] theorem feistel_trace (cfg : CfgReg) (rk : Nat → Word) (b : Block) (dir : Dir) (n : Nat) :
    (feistel cfg rk b dir n).2 = (runRounds cfg (roundKeys rk dir n) (leftHalf b, rightHalf b)).2 := rfl

theorem length_feistel_trace (cfg : CfgReg) (rk : Nat → Word) (b : Block) (dir : Dir) (n : Nat) :
    (feistel cfg rk b dir n).2.length = n := by
  simp [length_runRounds]

@[simp] theorem length_feistelOf_trace (s : State) (b : Block) (dir : Dir) :
    (s.feistelOf b dir).2.length = s.cfg.rounds.toNat :=
  length_feistel_trace _ _ _ _ _

/-! ## Undoing a round -/

/-- The halves exchanged. -/
def swapHalves (h : Word × Word) : Word × Word := (h.2, h.1)

/-- Without the left operand, a round function does not see the half it is XORed into. -/
theorem roundFunction_of_invertible {cfg : CfgReg} (h : cfg.Invertible) (k l l' r : Word) :
    roundFunction cfg k l r = roundFunction cfg k l' r := by
  obtain ⟨n, v, o⟩ := cfg
  rcases h with h | h <;> simp only at h <;> subst h
  · rfl
  · cases v <;> rfl

theorem roundStep_swap_roundStep {cfg : CfgReg} (hc : cfg.Invertible) (k : Word) (h : Word × Word) :
    roundStep cfg k (swapHalves (roundStep cfg k h)) = swapHalves h := by
  simp only [roundStep, swapHalves]
  rw [roundFunction_of_invertible hc k (h.1 ^^^ _) h.1 h.2, BitVec.xor_assoc, BitVec.xor_self, BitVec.xor_zero]

/-- The rounds run backwards from the exchanged halves lead back to where they began, exchanged. -/
theorem runRounds_reverse {cfg : CfgReg} (hc : cfg.Invertible) (ks : List Word) (h : Word × Word) :
    (runRounds cfg ks.reverse (swapHalves (runRounds cfg ks h).1)).1 = swapHalves h := by
  induction ks generalizing h with
  | nil => rfl
  | cons k ks ih =>
    simp only [List.reverse_cons, runRounds_append, runRounds_cons, runRounds_nil]
    rw [ih, roundStep_swap_roundStep hc]

theorem halves_emit (h : Word × Word) : (leftHalf (emit h), rightHalf (emit h)) = swapHalves h := by
  simp [emit, swapHalves]

end Sys2Proof.Machine
end

