-- ==== Sys2Proof/Laws/Padding.lean ====
section
/-! SUPPORT. The pad length, the pad and the strip (spec/40_padding.md R100 to R102). -/

namespace Sys2Proof.Machine

theorem padLen_pos (n : Nat) : 1 ≤ padLen n := by unfold padLen; omega

theorem padLen_le (n : Nat) : padLen n ≤ 8 := by unfold padLen; omega

theorem add_padLen_mod (n : Nat) : (n + padLen n) % 8 = 0 := by unfold padLen; omega

/-- n + PadLen(n) = floor8(n) + 8 (R104). -/
theorem add_padLen (n : Nat) : n + padLen n = floor8 n + 8 := by unfold padLen floor8; omega

theorem le_ceil8 (n : Nat) : n ≤ ceil8 n := by unfold ceil8; omega

theorem ceil8_lt (n : Nat) : ceil8 n < n + 8 := by unfold ceil8; omega

theorem ceil8_mod (n : Nat) : ceil8 n % 8 = 0 := by unfold ceil8; omega

theorem ceil8_of_mod {n : Nat} (h : n % 8 = 0) : ceil8 n = n := by unfold ceil8; omega

/-- ceil8(n) <= BUF_BYTES, since BUF_BYTES is a multiple of 8 (R160). -/
theorem ceil8_le {n size : Nat} (h : n ≤ size) (hs : size % 8 = 0) : ceil8 n ≤ size := by unfold ceil8; omega

@[simp] theorem length_padBytes (n : Nat) : (padBytes n).length = padLen n := by simp [padBytes]

@[simp] theorem length_padSeq (x : List Byte) : (padSeq x).length = x.length + padLen x.length := by
  simp [padSeq]

@[simp] theorem length_message (s : State) : s.message.length = s.mlen.toNat := by simp [State.message]

theorem toNat_padLen (n : Nat) : (BitVec.ofNat 8 (padLen n)).toNat = padLen n := by
  have := padLen_le n
  simp only [BitVec.toNat_ofNat]; omega

/-- The strip never lengthens a message. -/
theorem length_unpadSeq_le (x : List Byte) : (unpadSeq x).1.length ≤ x.length := by
  unfold unpadSeq
  split
  · rfl
  · split
    · rfl
    · split
      · rfl
      · split
        · simp
        · rfl

/-- What the pad does to the buffer, all of it (R104, R105). -/
theorem read_padMessage {s : State} (h : s.buf.wf) (a : Nat) :
    s.padMessage.buf.read a =
      if s.mlen.toNat ≤ a ∧ a < s.paddedEnd then BitVec.ofNat 8 (padLen s.mlen.toNat) else s.buf.read a := by
  show (s.buf.writeBytes s.mlen.toNat (padBytes s.mlen.toNat)).read a = _
  rw [Memory.read_writeBytes h, length_padBytes, State.paddedEnd]
  by_cases ha : s.mlen.toNat ≤ a ∧ a < s.mlen.toNat + padLen s.mlen.toNat
  · rw [if_pos ha, if_pos ha, padBytes, List.getD_eq_getElem?_getD, List.getElem?_replicate_of_lt (by omega)]
    rfl
  · rw [if_neg ha, if_neg ha]

end Sys2Proof.Machine
end

