-- ==== Sys2Proof/Laws/Multiblock.lean ====
section
/-! SUPPORT. What the ECB driver does to the buffer (spec/43_multiblock.md R160), said once: every block is replaced by
its image, and no other byte changes. -/

namespace Sys2Proof.Machine

theorem memRead_one (m : Memory) (a : Nat) : m.memRead a 1 = m.read a := by
  refine BitVec.eq_of_toNat_eq ?_
  show ((0#0 ++ m.read a : BitVec (0 + 8))).toNat = _
  rw [BitVec.toNat_append]
  simp

theorem memRead_eight (m : Memory) (a : Nat) : m.memRead a 8 = blockOf fun k => m.read (a + k) := by
  have h : m.memRead a 8 = m.memRead a 1 ++ m.read (a + 1) ++ m.read (a + 2) ++ m.read (a + 3) ++ m.read (a + 4) ++
      m.read (a + 5) ++ m.read (a + 6) ++ m.read (a + 7) := rfl
  rw [h, memRead_one]
  rfl

theorem ecbBlocks_zero (f : Block → Block) (m : Memory) : ecbBlocks f m 0 = m := rfl

theorem ecbBlocks_succ (f : Block → Block) (m : Memory) (n : Nat) :
    ecbBlocks f m (n + 1) =
      (ecbBlocks f m n).memWrite (8 * n) 8 (f ((ecbBlocks f m n).memRead (8 * n) 8)) := by
  simp [ecbBlocks, List.range_succ]

theorem wf_ecbBlocks (f : Block → Block) {m : Memory} (h : m.wf) (n : Nat) : (ecbBlocks f m n).wf := by
  induction n with
  | zero => exact h
  | succ n ih => rw [ecbBlocks_succ]; exact Memory.wf_memWrite ih _ _ _

theorem below_ecbBlocks (f : Block → Block) {m : Memory} {size : Nat} (h : m.Below size) (n : Nat)
    (hn : 8 * n ≤ size) : (ecbBlocks f m n).Below size := by
  induction n with
  | zero => exact h
  | succ n ih =>
    rw [ecbBlocks_succ]
    exact Memory.below_memWrite (ih (by omega)) _ _ _ (by omega)

/-- Bytes from 8n up are not touched by n blocks. -/
theorem read_ecbBlocks_of_ge (f : Block → Block) {m : Memory} (h : m.wf) {n x : Nat} (hx : 8 * n ≤ x) :
    (ecbBlocks f m n).read x = m.read x := by
  induction n with
  | zero => rfl
  | succ n ih =>
    rw [ecbBlocks_succ, Memory.read_memWrite (wf_ecbBlocks f h n), if_neg (by omega), ih (by omega)]

/-- Block b of the result is the image of block b of the input. -/
theorem memRead_ecbBlocks (f : Block → Block) {m : Memory} (h : m.wf) {n b : Nat} (hb : b < n) :
    (ecbBlocks f m n).memRead (8 * b) 8 = f (m.memRead (8 * b) 8) := by
  induction n with
  | zero => omega
  | succ n ih =>
    rw [ecbBlocks_succ]
    have hwf := wf_ecbBlocks f h n
    by_cases hbn : b = n
    · subst hbn
      rw [Memory.memRead_memWrite hwf]
      congr 1
      exact Memory.memRead_congr fun k _ => read_ecbBlocks_of_ge f h (by omega)
    · rw [← ih (by omega)]
      exact Memory.memRead_congr fun k hk => by rw [Memory.read_memWrite hwf, if_neg (by omega)]

/-- Byte k of a block in memory. -/
theorem read_of_memRead {m : Memory} {a k : Nat} (hk : k < 8) :
    m.read (a + k) = blockByte (m.memRead a 8) k := by
  rw [memRead_eight]
  have : k = 0 ∨ k = 1 ∨ k = 2 ∨ k = 3 ∨ k = 4 ∨ k = 5 ∨ k = 6 ∨ k = 7 := by omega
  refine BitVec.eq_of_getLsbD_eq fun i hi => ?_
  rcases this with rfl | rfl | rfl | rfl | rfl | rfl | rfl | rfl <;>
    simp only [blockByte, blockOf, BitVec.getLsbD_extractLsb', BitVec.getLsbD_append, hi, decide_true,
      Bool.true_and] <;>
    grind

/-- Byte x of the result, below 8n. -/
theorem read_ecbBlocks_of_lt (f : Block → Block) {m : Memory} (h : m.wf) {n x : Nat} (hx : x < 8 * n) :
    (ecbBlocks f m n).read x = blockByte (f (m.memRead (8 * (x / 8)) 8)) (x % 8) := by
  have h1 := memRead_ecbBlocks f h (n := n) (b := x / 8) (by omega)
  rw [← h1, ← read_of_memRead (by omega)]
  congr 1; omega

theorem wf_zeroFill {m : Memory} (h : m.wf) (n : Nat) : (zeroFill m n).wf := Memory.wf_writeBytes h _ _

theorem below_zeroFill {m : Memory} {size n : Nat} (h : m.Below size) (hn : ceil8 n ≤ size) :
    (zeroFill m n).Below size := by
  refine Memory.below_writeBytes h _ _ ?_
  have := le_ceil8 n
  simp only [List.length_replicate]; omega

/-- The zero fill changes the bytes from n to ceil8(n) - 1 and no other. -/
theorem read_zeroFill {m : Memory} (h : m.wf) (n x : Nat) :
    (zeroFill m n).read x = if n ≤ x ∧ x < ceil8 n then 0 else m.read x := by
  have hn := le_ceil8 n
  unfold zeroFill
  rw [Memory.read_writeBytes h, List.length_replicate]
  by_cases hx : n ≤ x ∧ x < ceil8 n
  · rw [if_pos (by omega), if_pos hx, List.getD_eq_getElem?_getD]
    rw [List.getElem?_replicate_of_lt (by omega)]; rfl
  · rw [if_neg (by omega), if_neg hx]

theorem blockOf_congr {f g : Nat → Byte} (h : ∀ k < 8, f k = g k) : blockOf f = blockOf g := by
  simp only [blockOf, h 0 (by omega), h 1 (by omega), h 2 (by omega), h 3 (by omega), h 4 (by omega),
    h 5 (by omega), h 6 (by omega), h 7 (by omega)]

theorem wf_ecb {s : State} (h : s.buf.wf) (dir : Dir) : (s.ecb dir).buf.wf := by
  rw [State.ecb_buf]
  exact wf_ecbBlocks _ (wf_zeroFill h _) _

/-- Block b of the zero-filled message. -/
theorem memRead_zeroFill {s : State} (h : s.buf.wf) {b : Nat} (hb : b < ceil8 s.mlen.toNat / 8) :
    (zeroFill s.buf s.mlen.toNat).memRead (8 * b) 8 = blockOf fun k => s.filledByte (8 * b + k) := by
  rw [memRead_eight]
  refine blockOf_congr fun k hk => ?_
  have := ceil8_mod s.mlen.toNat
  rw [read_zeroFill h, State.filledByte]
  by_cases hx : 8 * b + k < s.mlen.toNat
  · rw [if_neg (by omega), if_pos hx]
  · rw [if_pos (by omega), if_neg hx]

/-- What Ecb does to the blocks of the message (R160). -/
theorem memRead_ecb {s : State} (h : s.buf.wf) (dir : Dir) {b : Nat} (hb : b < ceil8 s.mlen.toNat / 8) :
    (s.ecb dir).buf.memRead (8 * b) 8 = (s.feistelOf (blockOf fun k => s.filledByte (8 * b + k)) dir).1 := by
  rw [State.ecb_buf, memRead_ecbBlocks _ (wf_zeroFill h _) hb, memRead_zeroFill h hb]

/-- Ecb touches no byte from ceil8(MLEN) up (R160). -/
theorem read_ecb_of_ge {s : State} (h : s.buf.wf) (dir : Dir) {a : Nat} (ha : ceil8 s.mlen.toNat ≤ a) :
    (s.ecb dir).buf.read a = s.buf.read a := by
  have := ceil8_mod s.mlen.toNat
  rw [State.ecb_buf, read_ecbBlocks_of_ge _ (wf_zeroFill h _) (by omega), read_zeroFill h, if_neg (by omega)]

end Sys2Proof.Machine
end

