-- ==== Sys2Proof/WellFormed.lean ====
section
/-! DEFINITION. When the fields of a command word form a legal command: the three checks of spec/30_encoding.md R84.
`Instr` is typed so that every term of it is legal (R83: no operand but the one-bit T, and only the rows of R82 that
allow T have it). -/

namespace Sys2Proof

/-- RSV must be 0 (R81). -/
def CmdFields.reservedClear (f : CmdFields) : Bool := f.rsv == 0

/-- OPC must be one of 0x0..0x8 (R82). -/
def CmdFields.opcodeDefined (f : CmdFields) : Bool := f.opc.toNat < 9

/-- T is legal only with OPC 1 or 2 (R81, R84). -/
def CmdFields.traceAllowed (f : CmdFields) : Bool := !f.t || f.opc == 1 || f.opc == 2

/-- The fields are those of a legal command (R84). -/
def CmdFields.wellFormed (f : CmdFields) : Bool :=
  f.reservedClear && f.opcodeDefined && f.traceAllowed

/-- Every command is legal for every value of its operands (R83: T is a one-bit flag, used as is). -/
def Instr.wellFormed : Instr → Bool
  | .nop => true
  | .encb _ => true
  | .decb _ => true
  | .pad => true
  | .unpad => true
  | .encm => true
  | .decm => true
  | .enc => true
  | .dec => true

end Sys2Proof
end

