-- ==== Sys2Proof/Laws/PerInstr.lean ====
section
/-! SUPPORT. The encoding of every command, one lemma for each constructor: it is well-formed, its fields pass the three
checks of spec/30_encoding.md R84, and the decoder gives it back from its word. -/

namespace Sys2Proof.Laws.EncodedWord

/-- A command is well-formed, its fields are those of a legal word, and its word decodes to it. -/
def Statement (i : Instr) : Prop :=
  i.wellFormed = true ∧ i.fields.wellFormed = true ∧ decode (encode i) = .ok i

theorem nop : Statement .nop := by unfold Statement; decide
theorem encb (t : Bool) : Statement (.encb t) := by unfold Statement; cases t <;> decide
theorem decb (t : Bool) : Statement (.decb t) := by unfold Statement; cases t <;> decide
theorem pad : Statement .pad := by unfold Statement; decide
theorem unpad : Statement .unpad := by unfold Statement; decide
theorem encm : Statement .encm := by unfold Statement; decide
theorem decm : Statement .decm := by unfold Statement; decide
theorem enc : Statement .enc := by unfold Statement; decide
theorem dec : Statement .dec := by unfold Statement; decide

end Sys2Proof.Laws.EncodedWord
end

