-- ==== Sys2Proof/Machine/Script.lean ====
section
/-! DEFINITION. Host programs (spec/30_encoding.md R86, R87): the host as an agent that issues one bus transaction a
statement. `BNZ` is the host's own control transfer, not the engine's (spec/44_control.md R183). Labels are positions in
the program. `step` does not need this file: a program only produces the events that `step` takes. -/

namespace Sys2Proof.Machine

/-- A statement (R86). The value after '->' in RD is a comment on the rules, not an effect, so it has no field. -/
inductive Stmt where
  /-- WR reg, value. -/
  | wr (off : Nat) (v : Word)
  /-- RD reg. -/
  | rd (off : Nat)
  /-- BNZ reg, mask, label: go to `label` if (value AND mask) is not 0. -/
  | bnz (off : Nat) (mask : Word) (label : Nat)
  /-- HALT. -/
  | halt
deriving DecidableEq, Repr

/-- A line of a host program: a statement or a pseudo-instruction (R87). -/
inductive Line where
  | stmt (s : Stmt)
  | cmd (i : Instr)
  | wait
  | run (i : Instr)
  | clrst
  | setcfg (n var op : Nat)
  | setkey (len : Nat) (words : List Word)
  | loadblk (hi lo : Word)
  | loadbuf (a : Nat) (words : List Word)
deriving DecidableEq, Repr

/-- Consecutive words written from the offset `off` up. -/
def writeWords (off : Nat) : List Word → List Stmt
  | [] => []
  | w :: ws => .wr off w :: writeWords (off + 4) ws

/-- The expansion of a line that stands at position `here` of the program (R87). -/
def Line.expand (here : Nat) : Line → List Stmt
  | .stmt s => [s]
  | .cmd i => [.wr Target.cmd.offset (encode i)]
  | .wait => [.bnz Target.status.offset 0x1 here]
  | .run i => [.wr Target.cmd.offset (encode i), .bnz Target.status.offset 0x1 (here + 1)]
  | .clrst => [.wr Target.status.offset 0xE]
  | .setcfg n var op => [.wr Target.cfg.offset (BitVec.ofNat 32 (n + 256 * var + 512 * op))]
  | .setkey len words =>
    writeWords (Target.key 0).offset words ++ [.wr Target.keylen.offset (BitVec.ofNat 32 len)]
  | .loadblk hi lo => [.wr Target.blk0.offset hi, .wr Target.blk1.offset lo]
  | .loadbuf a words => writeWords (Target.buf a).offset words

/-- A program's statements, its lines expanded one after another. -/
def assemble (here : Nat) : List Line → List Stmt
  | [] => []
  | l :: ls => l.expand here ++ assemble (here + (l.expand here).length) ls

/-- A host in the middle of its program: the next statement is the one at `pos`. -/
structure HostRun where
  stmts : List Stmt
  pos : Nat
deriving DecidableEq, Repr

/-- The transaction of the next statement; none at HALT and past the end. -/
def HostRun.event (h : HostRun) : Option Event :=
  match h.stmts[h.pos]? with
  | some (.wr off v) => some (.write off v)
  | some (.rd off) => some (.read off)
  | some (.bnz off _ _) => some (.read off)
  | some .halt => none
  | none => none

/-- Where the host stands once its transaction was answered (R86). -/
def HostRun.resume (h : HostRun) (answer : Option Word) : HostRun :=
  match h.stmts[h.pos]?, answer with
  | some (.bnz _ mask label), some v => if v &&& mask = 0 then { h with pos := h.pos + 1 } else { h with pos := label }
  | _, _ => { h with pos := h.pos + 1 }

/-- The host's turn: its next transaction, carried out by the machine's own step. -/
def HostRun.turn (h : HostRun) (s : State) : HostRun × Host.Outcome State Fault Refusal :=
  match h.event with
  | none => (h, .next s)
  | some e =>
    match step { s with inputs := e :: s.inputs } with
    | .next t => (h.resume t.busOut, .next t)
    | .fault r => (h, .fault r)
    | .refused r => (h, .refused r)

end Sys2Proof.Machine
end

