-- ==== Sys2Proof/Tests/Slice0.lean ====
section
/-! SUPPORT. Tests whose expected values come from the encodings of spec/30_encoding.md and the vectors of
spec/95_test_vectors.md, and one witness for the hypotheses of every obligation that has some. -/

namespace Sys2Proof.Tests

open Sys2Proof Sys2Proof.Machine

/- One kernel evaluation at a time: the tests side by side take one thread each, and together more memory than the check
allows. -/
set_option Elab.async false

/-! ## Helpers -/

/-- What `f` says of the next state; none on a fault or a refusal. -/
def after {α : Type} (o : Host.Outcome State Fault Refusal) (f : State → α) : Option α :=
  match o with
  | .next t => some (f t)
  | .fault _ => none
  | .refused _ => none

/-- The smallest machine but for two blocks of buffer: KEY_MAX_BITS = 32 and BUF_BYTES = 16, with key A (KEY[0] =
0xAAAA0000, KEYLEN = 16) and CFG = 0x002. -/
def small : State :=
  { State.reset with
    params := { keyMaxBits := 32, bufBytes := 16 }
    cfg := { rounds := 2, var := .identity, opsel := .right }
    key := [0xAAAA0000]
    keylen := 16 }

/-- The block b of spec/95_test_vectors.md in BLK. -/
def withB (s : State) : State := { s with blk0 := 0x48490606, blk1 := 0x06060606 }

/-- The message in BUF and its length in MLEN. -/
def withMsg (x : List Byte) (s : State) : State :=
  { s with buf := s.buf.writeBytes 0 x, mlen := BitVec.ofNat 16 x.length }

/-- A machine that executes the command word `c`, with the given events to come. -/
def busyWith (c : Word) (q : List Event) (s : State) : State :=
  { s with curcmd := c, status := { s.status with busy := true }, inputs := q }

/-- BLK, TRCNT and the first TRCNT entries of TRACE. -/
def blockView (t : State) : Block × BitVec 8 × List Block := (t.blk, t.trcnt, t.trace.take t.trcnt.toNat)

/-- MLEN, the first n bytes of BUF, and the STATUS word. -/
def bufView (n : Nat) (t : State) : BitVec 16 × List Byte × Word :=
  (t.mlen, t.buf.readBytes 0 n, t.status.toWord)

/-! ## WellFormed: each check refuses an ill-formed term -/

theorem test_reserved_bit_refused :
    CmdFields.reservedClear { opc := 1, t := false, rsv := 1 } = false ∧
    CmdFields.wellFormed { opc := 1, t := false, rsv := 1 } = false := by decide

theorem test_reserved_opcode_refused :
    CmdFields.opcodeDefined { opc := 9, t := false, rsv := 0 } = false ∧
    CmdFields.wellFormed { opc := 9, t := false, rsv := 0 } = false := by decide

theorem test_trace_on_pad_refused :
    CmdFields.traceAllowed { opc := 3, t := true, rsv := 0 } = false ∧
    CmdFields.wellFormed { opc := 3, t := true, rsv := 0 } = false := by decide

theorem test_traced_encb_accepted : CmdFields.wellFormed { opc := 1, t := true, rsv := 0 } = true := by decide

theorem test_illegal_parameters_refused :
    ¬ Config.Legal { keyMaxBits := 40, bufBytes := 16 } ∧ ¬ Config.Legal { keyMaxBits := 544, bufBytes := 16 } ∧
    ¬ Config.Legal { keyMaxBits := 32, bufBytes := 12 } ∧ ¬ Config.Legal { keyMaxBits := 32, bufBytes := 8200 } ∧
    Config.reference.Legal := by decide

theorem test_aperture_bound :
    Event.inAperture (.read 0x3FFF) = true ∧ Event.inAperture (.read 0x4000) = false ∧
    Event.inAperture (.write 0x4000 0) = false := by decide

/-! ## Decoding: words written out as RSV (27 bits), T, OPC (4 bits), spec/30_encoding.md R81 and R82 -/

theorem test_decode_nop : decode 0b000000000000000000000000000_0_0000#32 = .ok .nop := by decide
theorem test_decode_encb : decode 0b000000000000000000000000000_0_0001#32 = .ok (.encb false) := by decide
theorem test_decode_encb_t : decode 0b000000000000000000000000000_1_0001#32 = .ok (.encb true) := by decide
theorem test_decode_decb : decode 0b000000000000000000000000000_0_0010#32 = .ok (.decb false) := by decide
theorem test_decode_decb_t : decode 0b000000000000000000000000000_1_0010#32 = .ok (.decb true) := by decide
theorem test_decode_pad : decode 0b000000000000000000000000000_0_0011#32 = .ok .pad := by decide
theorem test_decode_unpad : decode 0b000000000000000000000000000_0_0100#32 = .ok .unpad := by decide
theorem test_decode_encm : decode 0b000000000000000000000000000_0_0101#32 = .ok .encm := by decide
theorem test_decode_decm : decode 0b000000000000000000000000000_0_0110#32 = .ok .decm := by decide
theorem test_decode_enc : decode 0b000000000000000000000000000_0_0111#32 = .ok .enc := by decide
theorem test_decode_dec : decode 0b000000000000000000000000000_0_1000#32 = .ok .dec := by decide

/-- The illegal words of V-44-2. -/
theorem test_decode_illegal :
    decode 0x00000009 = .error .reservedOpcode ∧ decode 0x0000000F = .error .reservedOpcode ∧
    decode 0x00000010 = .error .traceNotAllowed ∧ decode 0x00000013 = .error .traceNotAllowed ∧
    decode 0x00000018 = .error .traceNotAllowed ∧ decode 0x00000020 = .error .reservedBits ∧
    decode 0x80000001 = .error .reservedBits := by decide

theorem test_encode_words :
    encode (.decb true) = 0x00000012 ∧ encode .enc = 0x00000007 ∧ decodeTableWord 32 0x11 = some (.encb true) ∧
    decodeTableWord 32 0x09 = none := by decide

/-! ## The commands, against spec/95_test_vectors.md -/

/-- R180's example: NOP from reset leaves STATUS = 0x002. -/
theorem test_nop : after (exec .nop State.reset) (·.status.toWord) = some 0x00000002 := by decide +kernel

/-- V-42-1, Identity, N = 2. -/
theorem test_encb_traced :
    after (exec (.encb true) (withB small)) blockView =
      some (0x53535353E2E3ACAC, 2, [0xE2E3ACAC06060606, 0x53535353E2E3ACAC]) := by decide +kernel

/-- V-42-9: XorHalf with the left operand, N = 1, untraced: TRCNT stays. -/
theorem test_encb_left :
    after (exec (.encb false) { withB small with cfg := { rounds := 1, var := .xorHalf, opsel := .left } }) blockView =
      some (0xAAAAAAAA06060606, 0, []) := by decide +kernel

/-- V-42-3: DECB.T of b. -/
theorem test_decb_traced :
    after (exec (.decb true) (withB small)) blockView =
      some (0xACACACAC1D1C5353, 2, [0x1D1C535306060606, 0xACACACAC1D1C5353]) := by decide +kernel

/-- V-42-2 with XorHalf-Right, N = 4: DECB undoes the ENCB of V-42-14. -/
theorem test_decb_undoes :
    after (exec (.decb false) { small with
      cfg := { rounds := 4, var := .xorHalf, opsel := .right }, blk0 := 0x1B1A5555, blk1 := 0xF9F9F9F9 }) (·.blk) =
      some 0x4849060606060606 := by decide +kernel

/-- V-L1-1. -/
theorem test_pad :
    after (exec .pad (withMsg [0x48, 0x49] small)) (bufView 8) =
      some (8, [0x48, 0x49, 6, 6, 6, 6, 6, 6], 0x002) := by decide +kernel

/-- V-40-4 with BUF_BYTES = 16: a full buffer overflows. -/
theorem test_pad_overflow :
    after (exec .pad { small with mlen := 16, keylen := 0 }) (bufView 0) = some (16, [], 0x504) := by decide +kernel

/-- V-40-8, and the stripped bytes stay (V-40-7). -/
theorem test_unpad :
    after (exec .unpad (withMsg [0x48, 0x49, 6, 6, 6, 6, 6, 6] small)) (bufView 8) =
      some (2, [0x48, 0x49, 6, 6, 6, 6, 6, 6], 0x012) := by decide +kernel

/-- V-40-6: the last byte exceeds the length. -/
theorem test_unpad_unrecognised :
    after (exec .unpad (withMsg [5, 5, 5] small)) (bufView 3) = some (3, [5, 5, 5], 0x002) := by decide +kernel

/-- V-43-3: equal blocks give equal blocks. -/
theorem test_encm :
    after (exec .encm (withMsg [0x48, 0x49, 6, 6, 6, 6, 6, 6, 0x48, 0x49, 6, 6, 6, 6, 6, 6] small)) (bufView 16) =
      some (16, [0x53, 0x53, 0x53, 0x53, 0xE2, 0xE3, 0xAC, 0xAC, 0x53, 0x53, 0x53, 0x53, 0xE2, 0xE3, 0xAC, 0xAC],
        0x002) := by decide +kernel

/-- V-43-5: the zero fill of a partial block. -/
theorem test_encm_partial :
    after (exec .encm { withMsg [0x48, 0x49, 0xEE, 0xEE, 0xEE, 0xEE, 0xEE, 0xEE] small with mlen := 2 }) (bufView 8) =
      some (8, [0x55, 0x55, 0x55, 0x55, 0xE2, 0xE3, 0xAA, 0xAA], 0x002) := by decide +kernel

/-- R162's example. -/
theorem test_decm :
    after (exec .decm (withMsg [0x53, 0x53, 0x53, 0x53, 0xE2, 0xE3, 0xAC, 0xAC] small)) (bufView 8) =
      some (8, [0x48, 0x49, 6, 6, 6, 6, 6, 6], 0x002) := by decide +kernel

/-- V-L1-3. -/
theorem test_enc :
    after (exec .enc (withMsg [0x48, 0x49] small)) (bufView 8) =
      some (8, [0x53, 0x53, 0x53, 0x53, 0xE2, 0xE3, 0xAC, 0xAC], 0x002) := by decide +kernel

/-- V-43-10: KEYEMPTY comes before MLENRANGE. -/
theorem test_enc_priority :
    after (exec .enc { small with keylen := 0, mlen := 5000 }) (bufView 0) = some (5000, [], 0x204) := by
  decide +kernel

/-- V-43-4. -/
theorem test_dec :
    after (exec .dec (withMsg [0x53, 0x53, 0x53, 0x53, 0xE2, 0xE3, 0xAC, 0xAC] small)) (bufView 2) =
      some (2, [0x48, 0x49], 0x012) := by decide +kernel

/-- V-43-8: a wrong configuration leaves an unrecognised pad, which is no error. -/
theorem test_dec_unrecognised :
    after (exec .dec (withMsg [0x72, 0x35, 0xF4, 0x7C, 0xBD, 0x99, 0xD0, 0xA0] small)) (bufView 8) =
      some (8, [0x17, 0x33, 0x7A, 0x0A, 0x27, 0x60, 0xA1, 0x29], 0x002) := by decide +kernel

/-! ## Transactions, completion, reset -/

/-- V-44-2: an illegal word completes with STATUS = 0x104. -/
theorem test_step_illegal :
    after (step (busyWith 0x00000010 [.engine] small)) (·.status.toWord) = some 0x104 := by decide +kernel

/-- V-44-3: reserved bits of a write are dropped. -/
theorem test_write_masks :
    after (step { small with inputs := [.write 0x008 0xFFFFFFFF] }) (·.cfg.toWord) = some 0x3FF ∧
    after (step { small with inputs := [.write 0x018 0xFFFFFFFF] }) (·.keylen) = some 0x3FF := by decide +kernel

/-- V-44-4: a write of an input while busy is ignored and sets WIGN. -/
theorem test_write_busy :
    after (step (busyWith 0 [.write 0x008 0x005] small)) (fun t => (t.cfg.toWord, t.status.wign)) =
      some (0x002, true) := by decide +kernel

/-- Rule R24: CAPS with the reference parameters. -/
theorem test_read_caps :
    after (step { State.reset with inputs := [.read 0x006] }) (·.busOut) = some (some 0x10000100) := by decide +kernel

/-- R62: BUF[a] is the most significant byte of the word. -/
theorem test_buf_word :
    after (step { small with inputs := [.write 0x2004 0x48490607] }) (fun t => (t.buf.readBytes 4 4, t.buf.memRead 4 4)) =
      some ([0x48, 0x49, 0x06, 0x07], 0x48490607#32) := by decide +kernel

/-- R209: completion without error raises `irq` when DONEIE is set. -/
theorem test_irq :
    after (step (busyWith 0 [.engine] { small with irqen := { doneie := true, errie := false } })) State.irq =
      some true := by decide +kernel

/-- R61: an offset at APERTURE is refused by name. -/
theorem test_outside_aperture :
    (match step { small with inputs := [.read 0x4000] } with | .refused r => some r | _ => none) =
      some (.outsideAperture 0x4000) := by decide +kernel

/-- R230: reset of a busy engine, with contents of BUF, TRACE and CURCMD that the environment picks. -/
theorem test_reset_event :
    after (step (busyWith 5 [.reset { buf := [(3, 0xAB)], trace := [7], curcmd := 9 }] (withB small)))
      (fun t => (t.status.toWord, t.blk, t.buf.read 3, t.trace.head?, t.curcmd)) =
      some (0, 0, 0xAB, some 7, 9) := by decide +kernel

/-- The host's probe: the accepted word runs at the next step. -/
theorem test_withFetchWord :
    after (step (State.reset.withFetchWord 32 0x03)) (bufView 8) = some (8, [8, 8, 8, 8, 8, 8, 8, 8], 0x002) ∧
    after (step (State.reset.withFetchWord 32 0x07)) (·.status.toWord) = some 0x204 := by decide +kernel

/-- R87: RUN ENCB.T and SETCFG, expanded at position 4. -/
theorem test_script :
    assemble 4 [.setcfg 2 1 0, .run (.encb true), .clrst] =
      [.wr 0x008 0x102, .wr 0x00C 0x11, .bnz 0x010 0x1 6, .wr 0x010 0xE] := by decide +kernel

/-! ## Witnesses: states and operands that meet the hypotheses of an obligation -/

/-- A machine whose BUF holds two equal blocks, MLEN = BUF_BYTES. -/
def full : State := withMsg [0x48, 0x49, 6, 6, 6, 6, 6, 6, 0x48, 0x49, 6, 6, 6, 6, 6, 6] small

/-- The same with MLEN = BUF_BYTES - 1. -/
def almostFull : State := { full with mlen := 15 }

theorem small_inv : small.Inv := by decide +kernel

theorem full_inv : full.Inv := by decide +kernel

theorem witness_StepRunsTheDecodedCommand :
    (busyWith 0x11 [.engine, .read 0] small).EngineNext [.read 0] ∧
    (busyWith 0x11 [.engine, .read 0] small).status.busy = true ∧
    decode (busyWith 0x11 [.engine, .read 0] small).curcmd = .ok (.encb true) ∧
    (busyWith 0x08 [] small).EngineNext [] ∧ decode (busyWith 0x08 [] small).curcmd = .ok .dec := by
  refine ⟨.inl rfl, rfl, by decide, .inr ⟨rfl, rfl⟩, by decide⟩

theorem witness_IllegalWordCompletesWithIllcmd :
    (busyWith 0x09 [] small).EngineNext [] ∧ (busyWith 0x09 [] small).status.busy = true ∧
    decode (busyWith 0x09 [] small).curcmd = .error .reservedOpcode := by
  refine ⟨.inr ⟨rfl, rfl⟩, rfl, by decide⟩

/-- KEYEMPTY, and KEYRANGE at its first value. -/
theorem witness_ErrorConditions_key :
    Instr.usesKey .enc = true ∧ ({ small with keylen := 0 } : State).keylen.toNat = 0 ∧
    ({ small with keylen := 33 } : State).params.keyMaxBits < ({ small with keylen := 33 } : State).keylen.toNat := by
  decide +kernel

/-- MLENRANGE at its first value, OVERFLOW at its only value, and no error at the last length that fits. -/
theorem witness_ErrorConditions_length :
    Instr.usesBuffer .enc = true ∧ Instr.appendsPad .enc = true ∧ small.KeyLegal ∧
    ({ small with mlen := 17 } : State).params.bufBytes < ({ small with mlen := 17 } : State).mlen.toNat ∧
    full.MsgFits ∧ ¬ full.PaddedFits ∧
    almostFull.KeyLegal ∧ almostFull.MsgFits ∧ almostFull.PaddedFits ∧
    (after (exec .enc almostFull) (·.status.done)) = some true := by decide +kernel

theorem witness_ErrorsArePrecise :
    (busyWith 0x07 [] full).EngineNext [] ∧ (busyWith 0x07 [] full).status.busy = true ∧
    (busyWith 0x07 [] full).status.err = false ∧
    after (step (busyWith 0x07 [] full)) (·.status.err) = some true := by
  refine ⟨.inr ⟨rfl, rfl⟩, rfl, rfl, by decide +kernel⟩

theorem witness_PadOverflowsOnlyOnAFullBuffer :
    full.Inv ∧ full.MsgFits ∧ full.mlen.toNat = full.params.bufBytes ∧ almostFull.Inv ∧ almostFull.MsgFits := by
  decide +kernel

/-- A legal key: the shortest and the longest. -/
theorem witness_EncbResult :
    ({ small with keylen := 1 } : State).KeyLegal ∧ ({ small with keylen := 32 } : State).KeyLegal := by decide +kernel

theorem witness_DecbResult : small.KeyLegal ∧ (withB small).KeyLegal := by decide +kernel

theorem witness_TraceEntriesAfterACommand :
    small.Inv ∧ small.KeyLegal ∧ ({ small with cfg := { small.cfg with rounds := 255 } } : State).Inv ∧
    Instr.traced .nop = false ∧ after (exec .nop small) (fun _ => ()) = some () ∧
    after (exec (.encb true) { small with keylen := 0 }) (·.status.err) = some true ∧
    ({ small with keylen := 0 } : State).status.err = false := by decide +kernel

theorem witness_TraceIsAnOutputOnly :
    after (exec (.encb true) small) (fun _ => ()) = some () ∧ after (exec (.encb false) small) (fun _ => ()) = some () ∧
    after (exec (.decb true) small) (fun _ => ()) = some () ∧
    after (exec (.decb false) small) (fun _ => ()) = some () := by decide +kernel

/-- The shortest key and the longest that two words hold. -/
theorem witness_RoundKeyIsTheCyclicWindow :
    1 ≤ 1 ∧ 1 ≤ 32 * ([0x4B455931, 0x32333435] : List Word).length ∧
    64 ≤ 32 * ([0x4B455931, 0x32333435] : List Word).length ∧ 31 < 32 := by decide

/-- One length for each law: L = 1, L divides 32, and no wrap at the last round index. -/
theorem witness_RoundKeyLaws : 1 ≤ 1 ∧ 16 ∣ 32 ∧ 32 ∣ 32 ∧ 32 ≤ 64 ∧ 32 + 31 < 64 ∧ 32 ≤ 32 ∧ 0 + 31 < 32 := by decide

theorem witness_DecryptUndoesEncrypt :
    CfgReg.Invertible { rounds := 4, var := .identity, opsel := .left } ∧
    CfgReg.Invertible { rounds := 4, var := .xorHalf, opsel := .right } ∧
    ¬ CfgReg.Invertible { rounds := 4, var := .xorHalf, opsel := .left } := by decide

theorem witness_LeftOperandForgetsTheBlock :
    ({ rounds := 2, var := .xorHalf, opsel := .left } : CfgReg).var = .xorHalf ∧
    ({ rounds := 2, var := .xorHalf, opsel := .left } : CfgReg).opsel = .left ∧ 0 < 2 ∧ 2 ≤ 2 := by decide

theorem witness_IdentityVariantIsAConstantXor :
    small.cfg.var = .identity ∧ 63 < 64 ∧ 254 < 255 ∧ 252 % 4 = 0 := by decide

/-- The empty message, and the last length that fits. -/
theorem witness_PadResult : small.Inv ∧ small.PaddedFits ∧ almostFull.Inv ∧ almostFull.PaddedFits := by decide +kernel

theorem witness_UnpadResult : small.MsgFits ∧ full.MsgFits := by decide +kernel

/-- The empty message, a partial block, and a full buffer. -/
theorem witness_EncmDecmResult :
    ∀ s ∈ [small, almostFull, full], s.Inv ∧ s.KeyLegal ∧ s.MsgFits := by decide +kernel

theorem witness_EncResult :
    small.Inv ∧ small.KeyLegal ∧ small.PaddedFits ∧ almostFull.Inv ∧ almostFull.KeyLegal ∧ almostFull.PaddedFits := by
  decide +kernel

theorem witness_DecResult : almostFull.Inv ∧ almostFull.KeyLegal ∧ almostFull.MsgFits := by decide +kernel

theorem witness_EncAndDecRefineTheSource :
    almostFull.Inv ∧ almostFull.KeyLegal ∧ almostFull.PaddedFits ∧
    full.Inv ∧ full.KeyLegal ∧ full.MsgFits ∧ full.mlen.toNat % 8 = 0 := by decide +kernel

/-- The state after ENC is itself such a `u`. -/
theorem witness_DecAfterEncRestoresTheMessage :
    almostFull.Inv ∧ almostFull.KeyLegal ∧ almostFull.cfg.Invertible ∧
    almostFull.mlen.toNat + 1 ≤ almostFull.params.bufBytes ∧
    after (exec .enc almostFull) (fun u => decide (u.params = almostFull.params ∧ u.cfg = almostFull.cfg ∧
      u.keylen = almostFull.keylen ∧ u.key = almostFull.key ∧ u.mlen = 16)) = some true := by decide +kernel

/-- Two states that differ beyond the message and in the trace, and two equal blocks. -/
theorem witness_MultiblockResults :
    (let s : State := { full with mlen := 5 }
     let u : State := { withMsg [0x48, 0x49, 6, 6, 6] small with trcnt := 3 }
     s.Inv ∧ u.Inv ∧ s ≠ u ∧ s.params = u.params ∧ s.cfg = u.cfg ∧ s.keylen = u.keylen ∧ s.key = u.key ∧
      s.mlen = u.mlen ∧ s.status = u.status ∧ (∀ a < s.mlen.toNat, s.buf.read a = u.buf.read a) ∧
      after (exec .dec s) (fun _ => ()) = some ()) ∧
    (after (exec .encm full) (fun _ => ()) = some () ∧ 8 * 0 < full.mlen.toNat ∧ 8 * 1 < full.mlen.toNat ∧
      ∀ k < 8, full.filledByte (8 * 0 + k) = full.filledByte (8 * 1 + k)) := by decide +kernel

theorem witness_NoStepFaults : full.Inv ∧ small.Inv := ⟨full_inv, small_inv⟩

/-- The empty message, and a last byte above the length. -/
theorem witness_UnpadRecognisesPads : (unpadSeq []).2 = false ∧ (unpadSeq [5, 5, 5]).2 = false := by decide

theorem witness_EveryStepKeepsTheInvariant :
    (busyWith 0x08 [.engine] full).Inv ∧ after (step (busyWith 0x08 [.engine] full)) (fun _ => ()) = some () := by
  decide +kernel

theorem witness_AnAcceptedCommandCompletesOrIsAbandonedByReset :
    (busyWith 0x08 [.read 0x010, .write 0x3FFC 1] full).Inv ∧
    (busyWith 0x08 [.read 0x010, .write 0x3FFC 1] full).InAperture ∧
    (busyWith 0x08 [.read 0x010, .write 0x3FFC 1] full).status.busy = true := by decide +kernel

/-- BUSY set by acceptance, cleared by completion, cleared by reset. -/
theorem witness_BusyFollowsTheHandshake :
    after (step { small with inputs := [.write 0x00F 5] }) (·.status.busy) = some true ∧ small.status.busy = false ∧
    after (step (busyWith 0 [] small)) (·.status.busy) = some false ∧
    after (step (busyWith 0 [.reset { buf := [], trace := [], curcmd := 0 }] small)) (·.status.busy) = some false ∧
    (busyWith 0 [] small).status.busy = true := by decide +kernel

/-- PADV set by UNPAD and DEC, cleared by reset. -/
theorem witness_PadvIsWritten :
    after (step (busyWith 0x04 [] (withMsg [1] small))) (·.status.padv) = some true ∧
    after (step (busyWith 0x08 [] (withMsg [0x53, 0x53, 0x53, 0x53, 0xE2, 0xE3, 0xAC, 0xAC] small)))
      (·.status.padv) = some true ∧ small.status.padv = false ∧
    after (step { small with
      status := { small.status with padv := true }, inputs := [.reset { buf := [], trace := [], curcmd := 0 }] })
      (·.status.padv) = some false := by decide +kernel

/-- WIGN set by an ignored write, cleared by a STATUS write and by reset. -/
theorem witness_WignIsSticky :
    after (step (busyWith 0 [.write 0x2000 1] small)) (·.status.wign) = some true ∧ small.status.wign = false ∧
    (let w : State := { small with status := { small.status with wign := true } }
     after (step { w with inputs := [.write 0x010 8] }) (·.status.wign) = some false ∧
     after (step { w with inputs := [.reset { buf := [], trace := [], curcmd := 0 }] }) (·.status.wign) =
       some false) := by decide +kernel

/-- TRACE and TRCNT written by ENCB.T and DECB.T, TRCNT by reset. -/
theorem witness_OnlyTracedCommands :
    after (step (busyWith 0x11 [] small)) (fun t => decide (t.trcnt ≠ small.trcnt)) = some true ∧
    after (step (busyWith 0x12 [] small)) (fun t => decide (t.trcnt ≠ small.trcnt)) = some true ∧
    after (step { small with trcnt := 3, inputs := [.reset { buf := [], trace := [1], curcmd := 0 }] })
      (fun t => decide (t.trcnt ≠ 3 ∧ t.trace ≠ small.trace)) = some true := by decide +kernel

/-- BLK0 changed by ENCB, DECB, a host write and reset; and a block command that answers a next state. -/
theorem witness_BlockAndBufferCommands :
    after (step (busyWith 0x01 [] (withB small))) (fun t => decide (t.blk0 ≠ 0x48490606)) = some true ∧
    after (step (busyWith 0x02 [] (withB small))) (fun t => decide (t.blk0 ≠ 0x48490606)) = some true ∧
    after (step { withB small with inputs := [.write 0x028 1] }) (fun t => decide (t.blk0 ≠ 0x48490606)) = some true ∧
    after (step { withB small with inputs := [.reset { buf := [], trace := [], curcmd := 0 }] })
      (fun t => decide (t.blk0 ≠ 0x48490606)) = some true ∧
    after (exec (.encb false) small) (fun _ => ()) = some () ∧
    after (exec (.decb false) small) (fun _ => ()) = some () := by decide +kernel

/-- Each of the four registers changed by a host write, and all by reset. -/
theorem witness_OnlyTheHostConfigures :
    after (step { small with inputs := [.write 0x008 1] }) (fun t => decide (t.cfg ≠ small.cfg)) = some true ∧
    after (step { small with inputs := [.write 0x014 1] }) (fun t => decide (t.irqen ≠ small.irqen)) = some true ∧
    after (step { small with inputs := [.write 0x018 1] }) (fun t => decide (t.keylen ≠ small.keylen)) = some true ∧
    after (step { small with inputs := [.write 0x100 1] }) (fun t => decide (t.key ≠ small.key)) = some true ∧
    after (step { small with inputs := [.reset { buf := [], trace := [], curcmd := 0 }] })
      (fun t => decide (t.cfg ≠ small.cfg ∧ t.key ≠ small.key)) = some true := by decide +kernel

theorem witness_NothingMovesWhileBusy :
    (busyWith 0x01 [.write 0x028 1] small).status.busy = true ∧
    after (step (busyWith 0x01 [.write 0x028 1] small)) (·.status.busy) = some true := by decide +kernel

/-- Whatever the offset below APERTURE. -/
theorem witness_ReadWhileIdle (off : Nat) :
    ({ small with inputs := [.read off] } : State).Inv ∧
    ({ small with inputs := [.read off] } : State).status.busy = false :=
  ⟨small_inv, rfl⟩

/-- The clauses of the reading and writing obligations at the ends of their ranges, with BUF_BYTES = 16 and one key
word: the last key word, trace entry and buffer word, and the first and last reserved words. -/
theorem witness_offsets :
    0x100 = 0x100 + 4 * 0 ∧ 0 < small.params.keyWords ∧ 0x17F0 = 0x1000 + 8 * 254 ∧ 0x17F4 = 0x1004 + 8 * 254 ∧
    0x200C = 0x2000 + 12 ∧ 12 < small.params.bufBytes ∧ 0x3FFF - 0x3FFF % 4 = 0x3FFC ∧
    0x2000 + small.params.bufBytes ≤ 0x2010 ∧ 0x100 + 4 * small.params.keyWords ≤ 0x104 ∧
    (∀ off ∈ [0x000, 0x004, 0x008, 0x00C, 0x010, 0x014, 0x018, 0x01C, 0x020, 0x024, 0x028, 0x02C, 0x030, 0x0FC, 0x100,
      0x104, 0xFFC, 0x1000, 0x17F4, 0x17F8, 0x1FFC, 0x2000, 0x200C, 0x2010, 0x3FFC], off < 0x4000 ∧ off % 4 = 0) := by
  decide +kernel

theorem witness_ReadWhileBusy (off : Nat) :
    (busyWith 0x08 [.read off] full).Inv ∧ (busyWith 0x08 [.read off] full).status.busy = true :=
  ⟨⟨full_inv.1, full_inv.2.1, full_inv.2.2.1, full_inv.2.2.2.1,
      show ({ full.status with busy := true } : Status).Wf by decide +kernel⟩, rfl⟩

theorem witness_WriteWhileIdle (off : Nat) (v : Word) :
    ({ small with inputs := [.write off v] } : State).Inv ∧
    ({ small with inputs := [.write off v] } : State).status.busy = false :=
  ⟨small_inv, rfl⟩

theorem witness_WriteWhileBusy (off : Nat) (v : Word) :
    (busyWith 0x08 [.write off v] full).params.Legal ∧ (busyWith 0x08 [.write off v] full).status.busy = true :=
  ⟨full_inv.1, rfl⟩

/-- Accepted, ignored, read. -/
theorem witness_AcceptanceOfACommand :
    0x00F - 0x00F % 4 = 0x00C ∧ ({ small with inputs := [.write 0x00F 5] } : State).status.busy = false ∧
    (busyWith 0 [.write 0x00C 5] small).status.busy = true ∧
    ({ small with inputs := [.read 0x00C] } : State).inputs = [.read 0x00C] := by decide +kernel

theorem witness_StatusIsWriteOneToClear :
    ({ small with inputs := [.write 0x013 0xE] } : State).inputs = [.write 0x013 0xE] ∧ 0x013 - 0x013 % 4 = 0x010 := by
  decide +kernel

/-- One register of each clause; BUF at its last word. -/
theorem witness_RegistersReadBackTheirFields :
    ∀ o ∈ [0x008, 0x014, 0x018, 0x01C, 0x028, 0x02C, 0x100, 0x2000, 0x200C],
      ({ small with inputs := [.write o 0xFFFFFFFF, .read (o + 3)] } : State).Inv ∧ o - o % 4 = (o + 3) - (o + 3) % 4 ∧
      (o = 0x008 ∨ o = 0x014 ∨ o = 0x018 ∨ o = 0x01C ∨ o = 0x028 ∨ o = 0x02C ∨
        (0x100 ≤ o ∧ o < 0x100 + 4 * small.params.keyWords) ∨ (0x2000 ≤ o ∧ o < 0x2000 + small.params.bufBytes)) := by
  decide +kernel

theorem witness_LowOffsetBitsAreIgnored : 0x3FFF < 0x4000 := by decide

theorem witness_KeyBytesArePackedBigEndian : 3 < 4 * ([0xAAAA0000] : List Word).length ∧ 7 < 8 := by decide

theorem witness_MemoryPrimitives : full.buf.wf ∧ 7 < 8 ∧ 0 + 8 ≤ 8 := by decide +kernel

/-- `irq` high with the invariant, and the three writes that lower it. -/
theorem witness_InterruptLevel :
    let s : State := { small with
      status := { small.status with done := true }, irqen := { doneie := true, errie := true } }
    s.Inv ∧ s.irq = true ∧
    (0x00C - 0x00C % 4 = 0x00C ∧ s.status.busy = false) ∧
    (0x010 - 0x010 % 4 = 0x010 ∧ (s.status.done = true → (0x2#32).getLsbD 1 = true) ∧
      (s.status.err = true → (0x2#32).getLsbD 2 = true)) ∧
    (0x014 - 0x014 % 4 = 0x014 ∧ (s.status.done = true → (0x2#32).getLsbD 0 = false) ∧
      (s.status.err = true → (0x2#32).getLsbD 1 = false)) := by decide +kernel

theorem witness_AnIdleEngineHoldsItsState :
    ({ small with inputs := [.engine] } : State).EngineNext [] ∧ small.EngineNext [] ∧ small.status.busy = false :=
  ⟨.inl rfl, .inr ⟨rfl, rfl⟩, rfl⟩

theorem witness_ResetLeavesTheseValues :
    (busyWith 5 [.reset { buf := [(0, 1)], trace := [1], curcmd := 2 }] full).inputs =
      [.reset { buf := [(0, 1)], trace := [1], curcmd := 2 }] := by decide +kernel

theorem witness_ResetCanLeaveAnyContents : (List.replicate 255 (1 : Block)).length = 255 := by decide +kernel

/-- At the first offset outside, and just below it. -/
theorem witness_OnlyOffsetsOutsideTheAperture :
    0x4000 ≤ 0x4000 ∧ ({ small with inputs := [.read 0x4000] } : State).inputs = [.read 0x4000] ∧
    after (step { small with inputs := [.read 0x3FFF] }) (·.busOut) = some (some 0) := by decide +kernel

end Sys2Proof.Tests
end

section
/-! SUPPORT. Rules that proofs about whole runs need: what the checks of R203 guarantee, how a step can fault, and that
every operation of the machine keeps `State.Inv`. -/

namespace Sys2Proof.Machine

/-! ## MemRead, byte by byte (spec/00_scope.md R12) -/

/-- Byte k of a MemRead is the byte at a + k. -/
theorem Memory.extractLsb'_memRead (m : Memory) (a : Nat) {n k : Nat} (hk : k < n) :
    (m.memRead a n).extractLsb' (8 * (n - k) - 8) 8 = m.read (a + k) := by
  induction n with
  | zero => omega
  | succ n ih =>
    show (m.memRead a n ++ m.read (a + n)).extractLsb' (8 * (n + 1 - k) - 8) 8 = _
    by_cases hlast : k = n
    · subst hlast
      rw [show 8 * (k + 1 - k) - 8 = 0 by omega]
      exact BitVec.extractLsb'_append_eq_right
    · rw [BitVec.extractLsb'_append_eq_of_le (by omega),
        show 8 * (n + 1 - k) - 8 - 8 = 8 * (n - k) - 8 by omega]
      exact ih (by omega)

/-! ## The checks of R203 -/

theorem keyError_ne_none {s : State} {e : ErrCode} (h : s.keyError = some e) : e ≠ .none := by
  rintro rfl
  unfold State.keyError at h
  split at h
  · cases h
  · split at h <;> cases h

theorem mlenError_ne_none {s : State} {e : ErrCode} (h : s.mlenError = some e) : e ≠ .none := by
  rintro rfl
  unfold State.mlenError at h
  split at h <;> cases h

theorem overflowError_ne_none {s : State} {e : ErrCode} (h : s.overflowError = some e) : e ≠ .none := by
  rintro rfl
  unfold State.overflowError at h
  split at h <;> cases h

/-- A command's check is the checks of its columns of R203, in the order of R204. -/
theorem commandCheck_eq_columns (i : Instr) (s : State) :
    commandCheck i s =
      ((if i.usesKey then s.keyError else none).or
        ((if i.usesBuffer then s.mlenError else none).or (if i.appendsPad then s.overflowError else none))) := by
  cases i <;> simp [commandCheck, Instr.usesKey, Instr.usesBuffer, Instr.appendsPad]

/-- What a passed check guarantees of the message. -/
theorem fits_of_commandCheck {i : Instr} {s : State} (h : commandCheck i s = none) :
    (i.usesBuffer = true → s.MsgFits) ∧ (i.appendsPad = true → s.PaddedFits) := by
  rw [commandCheck_eq_columns, Option.or_eq_none_iff, Option.or_eq_none_iff] at h
  obtain ⟨-, hmlen, hover⟩ := h
  exact ⟨fun hi => mlenError_eq_none.mp (by rwa [if_pos hi] at hmlen),
    fun hi => overflowError_eq_none.mp (by rwa [if_pos hi] at hover)⟩

/-- A failed check gives one of the codes of R203, never the code of no error. -/
theorem commandCheck_ne_none {i : Instr} {s : State} {e : ErrCode} (h : commandCheck i s = some e) : e ≠ .none := by
  have of_column : ∀ {b : Bool} {check : Option ErrCode},
      (if b then check else none) = some e → check = some e := by
    intro b check hb
    cases b with
    | true => exact hb
    | false => cases hb
  rw [commandCheck_eq_columns, Option.or_eq_some_iff, Option.or_eq_some_iff] at h
  obtain h | ⟨-, h | ⟨-, h⟩⟩ := h
  · exact keyError_ne_none (of_column h)
  · exact mlenError_ne_none (of_column h)
  · exact overflowError_ne_none (of_column h)

/-- The checks ensure that a command touches no byte outside BUF (R72). -/
theorem commandReach_le {i : Instr} {s : State} (hl : s.params.Legal) (h : commandCheck i s = none) :
    commandReach i s ≤ s.params.bufBytes := by
  obtain ⟨hmsg, hpad⟩ := fits_of_commandCheck h
  obtain ⟨-, -, -, hsize, -⟩ := hl
  cases i with
  | nop | encb | decb => exact Nat.zero_le _
  | pad | enc => exact hpad rfl
  | unpad => exact hmsg rfl
  | encm | decm | dec => exact ceil8_le (hmsg rfl) hsize

/-! ## Faults -/

/-- The one way in which `runCommand` faults. -/
theorem runCommand_fault {error : Option ErrCode} {reach : Nat} {effect : State → State} {s : State} {r : Fault}
    (h : runCommand error reach effect s = .fault r) :
    error = none ∧ s.params.bufBytes < reach ∧ r = .bufferRange reach := by
  cases error with
  | some e => cases h
  | none =>
    simp only [runCommand] at h
    split at h
    · next hr => exact ⟨rfl, hr, by simpa using h.symm⟩
    · cases h

/-- With legal parameters no command faults. -/
theorem exec_ne_fault {s : State} (hl : s.params.Legal) (i : Instr) (r : Fault) : exec i s ≠ .fault r := by
  intro h
  rw [exec_eq_runCommand] at h
  obtain ⟨hc, hr, -⟩ := runCommand_fault h
  exact absurd (commandReach_le hl hc) (by omega)

theorem engineTurn_ne_fault {s : State} (hl : s.params.Legal) (r : Fault) : engineTurn s ≠ .fault r := by
  unfold engineTurn completeCommand
  split
  · cases decode s.curcmd with
    | ok i => exact exec_ne_fault hl i r
    | error e => exact nofun
  · exact nofun

/-- A host transaction ends in a next state or in a refusal. -/
theorem atOffset_ne_fault (off : Nat) (s : State) (r : Fault) : atOffset off s ≠ .fault r := by
  unfold atOffset
  split <;> exact nofun

theorem takeEvent_ne_fault {s : State} (hl : s.params.Legal) (e : Event) (r : Fault) : takeEvent e s ≠ .fault r := by
  cases e with
  | read off => exact atOffset_ne_fault off _ r
  | write off v => exact atOffset_ne_fault off _ r
  | engine => exact engineTurn_ne_fault hl r
  | reset u => exact nofun

/-! ## STATUS stays well-formed (spec/10_state.md R27, R30, R34) -/

theorem Status.wf_idle : Status.idle.Wf := by decide

theorem Status.wf_accepted (st : Status) : st.accepted.Wf := by simp [Status.Wf]

theorem Status.wf_completed {st : Status} (h : st.Wf) (hb : st.busy = true) : st.completed.Wf := by
  obtain ⟨-, hbusy, hcode⟩ := h
  simpa [Status.Wf, (hbusy hb).2] using hcode

theorem Status.wf_failed {st : Status} (h : st.Wf) (hb : st.busy = true) {e : ErrCode} (he : e ≠ .none) :
    (st.failed e).Wf := by
  obtain ⟨-, hbusy, -⟩ := h
  simp [Status.Wf, (hbusy hb).1, he]

/-- Clearing DONE or ERR sets neither, and ERRCODE goes with ERR. -/
theorem Status.wf_clear {st : Status} (h : st.Wf) (v : Word) : (st.clear v).Wf := by
  obtain ⟨hboth, hbusy, hcode⟩ := h
  have hdone : (st.clear v).done = true → st.done = true := by
    rw [Status.clear_done]
    split
    · exact nofun
    · exact id
  simp only [Status.Wf, Status.clear_busy, Status.clear_done, Status.clear_err, Status.clear_errcode]
  cases v.getLsbD 2 with
  | true => exact ⟨by simp, fun hb => ⟨by simp [(hbusy hb).1], rfl⟩, by simp⟩
  | false =>
    exact ⟨fun hc => hboth ⟨hdone hc.1, hc.2⟩, fun hb => ⟨by simp [(hbusy hb).1], (hbusy hb).2⟩, hcode⟩

/-! ## The effects of the commands keep the invariant -/

section
variable {s : State}

theorem inv_blockCommand (h : s.Inv) (dir : Dir) (t : Bool) : (s.blockCommand dir t).Inv := by
  obtain ⟨hl, hkey, htrace, hbuf, hst⟩ := h
  have hlen : (s.blockCommand dir t).trace.length = Config.traceDepth := by
    have hrounds : s.cfg.rounds.toNat < 256 := s.cfg.rounds.isLt
    cases t with
    | false => simpa using htrace
    | true =>
      simp only [State.blockCommand_trace, if_true, List.length_append, List.length_drop,
        length_feistelOf_trace, htrace, Config.traceDepth]
      omega
  exact ⟨by simpa using hl, by simpa [State.KeyWf] using hkey, hlen, by simpa [State.BufWf] using hbuf,
    by simpa using hst⟩

theorem inv_padMessage (h : s.Inv) (hr : s.paddedEnd ≤ s.params.bufBytes) : s.padMessage.Inv := by
  obtain ⟨hl, hkey, htrace, ⟨hwf, hbelow⟩, hst⟩ := h
  have hin : s.mlen.toNat + (padBytes s.mlen.toNat).length ≤ s.params.bufBytes := by
    rw [length_padBytes]; exact hr
  exact ⟨hl, hkey, htrace, ⟨Memory.wf_writeBytes hwf _ _, Memory.below_writeBytes hbelow _ _ hin⟩, hst⟩

/-- The strip writes only MLEN and PADV, of which the invariant says nothing. -/
theorem inv_unpadMessage (h : s.Inv) : s.unpadMessage.Inv := h

theorem below_ecb {size : Nat} (h : s.buf.Below size) (dir : Dir) (hr : ceil8 s.mlen.toNat ≤ size) :
    (s.ecb dir).buf.Below size := by
  have hmod := ceil8_mod s.mlen.toNat
  rw [State.ecb_buf]
  exact below_ecbBlocks _ (below_zeroFill h hr) _ (by omega)

theorem inv_ecb (h : s.Inv) (dir : Dir) (hr : ceil8 s.mlen.toNat ≤ s.params.bufBytes) : (s.ecb dir).Inv := by
  obtain ⟨hl, hkey, htrace, ⟨hwf, hbelow⟩, hst⟩ := h
  exact ⟨hl, hkey, htrace, ⟨wf_ecb hwf dir, below_ecb hbelow dir hr⟩, hst⟩

/-- A padded message that fits consists of whole blocks, and MLEN does not wrap. -/
theorem ceil8_mlen_padMessage (hl : s.params.Legal) (hr : s.paddedEnd ≤ s.params.bufBytes) :
    ceil8 s.padMessage.mlen.toNat = s.paddedEnd := by
  have hmod : s.paddedEnd % 8 = 0 := add_padLen_mod _
  obtain ⟨-, -, -, -, -, hmax⟩ := hl
  rw [State.padMessage_mlen, BitVec.toNat_ofNat, Nat.mod_eq_of_lt (by omega), ceil8_of_mod hmod]

/-- The effect of a command that stays inside BUF keeps the invariant. -/
theorem inv_commandEffect (h : s.Inv) {i : Instr} (hr : commandReach i s ≤ s.params.bufBytes) :
    (commandEffect i s).Inv := by
  cases i with
  | nop => exact h
  | encb t => exact inv_blockCommand h .enc t
  | decb t => exact inv_blockCommand h .dec t
  | pad => exact inv_padMessage h hr
  | unpad => exact inv_unpadMessage h
  | encm => exact inv_ecb h .enc hr
  | decm => exact inv_ecb h .dec hr
  | enc => exact inv_ecb (inv_padMessage h hr) .enc (by rw [ceil8_mlen_padMessage h.1 hr]; exact hr)
  | dec => exact inv_unpadMessage (inv_ecb h .dec hr)

/-- BUSY falls at completion, not in the effect of a command. -/
theorem commandEffect_busy (i : Instr) (s : State) : (commandEffect i s).status.busy = s.status.busy := by
  cases i <;> simp [commandEffect]

/-! ## The two completions and every command -/

theorem inv_complete (h : s.Inv) (hb : s.status.busy = true) : s.complete.Inv := by
  obtain ⟨hl, hkey, htrace, hbuf, hst⟩ := h
  exact ⟨hl, hkey, htrace, hbuf, Status.wf_completed hst hb⟩

theorem inv_completeError (h : s.Inv) (hb : s.status.busy = true) {e : ErrCode} (he : e ≠ .none) :
    (s.completeError e).Inv := by
  obtain ⟨hl, hkey, htrace, hbuf, hst⟩ := h
  exact ⟨hl, hkey, htrace, hbuf, Status.wf_failed hst hb he⟩

theorem inv_exec (h : s.Inv) (hb : s.status.busy = true) {i : Instr} {t : State} (he : exec i s = .next t) :
    t.Inv := by
  obtain ⟨e, hc, rfl⟩ | ⟨-, hr, rfl⟩ := exec_next he
  · exact inv_completeError h hb (commandCheck_ne_none hc)
  · exact inv_complete (inv_commandEffect h hr) ((commandEffect_busy i s).trans hb)

/-! ## The host's transactions and reset -/

/-- The queue and the bus answer are the model's own: the invariant does not speak of them. -/
theorem inv_withInputs (h : s.Inv) (rest : List Event) : (s.withInputs rest).Inv := h

theorem inv_hostRead (h : s.Inv) (off : Nat) : (s.hostRead off).Inv := by
  simpa [State.Inv, State.KeyWf, State.TraceWf, State.BufWf] using h

/-- A whole word of BUF lies inside BUF, since BUF_BYTES is a multiple of 8 (R6). -/
theorem word_of_targetAt_buf {c : Config} (hl : c.Legal) {w a : Nat} (hw : w % 4 = 0)
    (ht : targetAt c w = .buf a) : a + 4 ≤ c.bufBytes := by
  obtain ⟨-, -, -, hsize, -⟩ := hl
  have := of_targetAt_buf ht
  omega

theorem inv_writeTarget (h : s.Inv) {t : Target} (ht : ∀ a, t = .buf a → a + 4 ≤ s.params.bufBytes) (v : Word) :
    (s.writeTarget t v).Inv := by
  obtain ⟨hl, hkey, htrace, ⟨hwf, hbelow⟩, hst⟩ := h
  cases t with
  | cmd => exact ⟨hl, hkey, htrace, ⟨hwf, hbelow⟩, Status.wf_accepted s.status⟩
  | status => exact ⟨hl, hkey, htrace, ⟨hwf, hbelow⟩, Status.wf_clear hst v⟩
  | key w => exact ⟨hl, List.length_set.trans hkey, htrace, ⟨hwf, hbelow⟩, hst⟩
  | buf a =>
    exact ⟨hl, hkey, htrace,
      ⟨Memory.wf_memWrite hwf a 4 v, Memory.below_memWrite hbelow a 4 v (ht a rfl)⟩, hst⟩
  | _ => exact ⟨hl, hkey, htrace, ⟨hwf, hbelow⟩, hst⟩

theorem inv_hostWrite (h : s.Inv) (off : Nat) (v : Word) : (s.hostWrite off v).Inv := by
  unfold State.hostWrite
  dsimp only
  split
  · exact h
  · exact inv_writeTarget h (fun a => word_of_targetAt_buf h.1 (wordOffset_mod off)) v

@[simp] theorem length_traceOf (entries : List Block) : (traceOf entries).length = Config.traceDepth := by
  simp only [traceOf, List.length_append, List.length_take, List.length_replicate]
  omega

/-- Reset needs only that the parameters are legal: it sets everything else that the invariant speaks of. -/
theorem inv_assertReset (hl : s.params.Legal) (u : Unspecified) : (s.assertReset u).Inv :=
  ⟨hl, List.length_replicate, length_traceOf _, ⟨Memory.wf_ofCells _ _, Memory.below_ofCells _ _⟩,
    Status.wf_idle⟩

end

/-! ## The obligations of spec/00_scope.md -/

/-- Settles O34: each of the six ways in which a step gives a next state keeps the invariant. -/
theorem everyStepKeepsTheInvariant : Obligations.EveryStepKeepsTheInvariant := by
  intro s t h hstep
  obtain ⟨rest, -, -, rfl⟩ | ⟨rest, i, -, hb, -, he⟩ | ⟨rest, e, -, hb, -, rfl⟩ | ⟨off, rest, -, -, rfl⟩ |
    ⟨off, v, rest, -, -, rfl⟩ | ⟨u, rest, -, rfl⟩ := step_next hstep
  · exact inv_withInputs h rest
  · exact inv_exec (inv_withInputs h rest) hb he
  · exact inv_completeError (inv_withInputs h rest) hb (by decide)
  · exact inv_hostRead (inv_withInputs h rest) off
  · exact inv_hostWrite (inv_withInputs h rest) off v
  · exact inv_assertReset h.1 u

/-- Settles O36: the only guard is `runCommand`'s, and a command's checks keep its reach below it. -/
theorem noStepFaults : Obligations.NoStepFaults := by
  intro s r h
  unfold step takeStep
  split
  · exact engineTurn_ne_fault (inv_withInputs h _).1 r
  · exact takeEvent_ne_fault (inv_withInputs h _).1 _ r

/-- Settles O55: a MemRead taken apart into its bytes, and what MemWrite does to every byte. -/
theorem memoryPrimitives : Obligations.MemoryPrimitives := by
  intro m a n v h
  have hwrite := Memory.read_memWrite h a n v
  refine ⟨fun k hk => (m.extractLsb'_memRead a hk).symm, fun k hk => ?_, fun x hx => ?_,
    Memory.memRead_memWrite h a n v, Memory.wf_memWrite h a n v⟩
  · rw [hwrite, if_pos (by omega), Nat.add_sub_cancel_left]
  · rw [hwrite, if_neg (by omega)]

end Sys2Proof.Machine
end

section
/-! SUPPORT. What may change a register of the FBE (spec/10_state.md), and how a register reads back what the host wrote
to it. -/

namespace Sys2Proof.Machine

/-! ## What the effect of a command leaves alone -/

/-- Of STATUS the effect of a command writes at most PADV; the rest changes at completion. -/
theorem commandEffect_status (i : Instr) (s : State) :
    ∃ p, (commandEffect i s).status = { s.status with padv := p } := by
  cases i with
  | unpad | dec => exact ⟨_, rfl⟩
  | _ => exact ⟨s.status.padv, by simp [commandEffect]⟩

theorem commandEffect_err (i : Instr) (s : State) : (commandEffect i s).status.err = s.status.err := by
  obtain ⟨p, hst⟩ := commandEffect_status i s
  rw [hst]

theorem commandEffect_wign (i : Instr) (s : State) : (commandEffect i s).status.wign = s.status.wign := by
  obtain ⟨p, hst⟩ := commandEffect_status i s
  rw [hst]

/-- Only the commands that strip a pad write PADV (R33). -/
theorem strips_of_commandEffect_padv {i : Instr} {s : State}
    (h : (commandEffect i s).status.padv ≠ s.status.padv) : i = .unpad ∨ i = .dec := by
  cases i with
  | unpad => exact .inl rfl
  | dec => exact .inr rfl
  | _ => simp [commandEffect] at h

/-- Only a traced command writes TRACE and TRCNT (R144). -/
theorem traced_of_commandEffect_trace {i : Instr} {s : State}
    (h : (commandEffect i s).trace ≠ s.trace ∨ (commandEffect i s).trcnt ≠ s.trcnt) :
    i = .encb true ∨ i = .decb true := by
  cases i with
  | encb t | decb t =>
    cases t with
    | true => simp
    | false => simp [commandEffect] at h
  | _ => simp [commandEffect] at h

/-- Only the block commands write BLK (R39). -/
theorem block_of_commandEffect_blk {i : Instr} {s : State}
    (h : (commandEffect i s).blk0 ≠ s.blk0 ∨ (commandEffect i s).blk1 ≠ s.blk1) :
    ∃ d, i = .encb d ∨ i = .decb d := by
  cases i with
  | encb t => exact ⟨t, .inl rfl⟩
  | decb t => exact ⟨t, .inr rfl⟩
  | _ => simp [commandEffect] at h

/-- The block commands touch no buffer state, with or without error (R142). -/
theorem exec_block_frame {i : Instr} {d : Bool} (hi : i = .encb d ∨ i = .decb d) {s t : State}
    (h : exec i s = .next t) : t.buf = s.buf ∧ t.mlen = s.mlen ∧ t.status.padv = s.status.padv := by
  obtain ⟨e, -, rfl⟩ | ⟨-, -, rfl⟩ := exec_next h
  · simp
  · obtain rfl | rfl := hi <;> simp [commandEffect]

/-! ## What can change an observation of the state -/

/-- The observation does not see the queue, the bus answer or a completion with an error, so that only a command
without error, a host write or reset can change it. -/
structure UnmovedByErrors {α : Type} (f : State → α) : Prop where
  withInputs : ∀ s rest, f (s.withInputs rest) = f s
  hostRead : ∀ (s : State) off, f (s.hostRead off) = f s
  completeError : ∀ (s : State) e, f (s.completeError e) = f s

/-- The three ways in which a step can change such an observation. -/
theorem step_next_of_changed {α : Type} {f : State → α} (hf : UnmovedByErrors f) {s t : State}
    (h : step s = .next t) (hne : f t ≠ f s) :
    (∃ rest i, s.EngineNext rest ∧ s.status.busy = true ∧ decode s.curcmd = .ok i ∧
      commandCheck i (s.withInputs rest) = none ∧ t = (commandEffect i (s.withInputs rest)).complete) ∨
    (∃ off v rest, s.inputs = .write off v :: rest ∧ t = (s.withInputs rest).hostWrite off v) ∨
    ∃ u rest, s.inputs = .reset u :: rest ∧ t = (s.withInputs rest).assertReset u := by
  obtain ⟨rest, -, -, rfl⟩ | ⟨rest, i, hn, hb, hd, he⟩ | ⟨rest, e, -, -, -, rfl⟩ | ⟨off, rest, -, -, rfl⟩ |
    ⟨off, v, rest, hq, -, rfl⟩ | ⟨u, rest, hq, rfl⟩ := step_next h
  · exact absurd (hf.withInputs s rest) hne
  · obtain ⟨e, -, rfl⟩ | ⟨hc, -, rfl⟩ := exec_next he
    · exact absurd ((hf.completeError _ e).trans (hf.withInputs s rest)) hne
    · exact .inl ⟨rest, i, hn, hb, hd, hc, rfl⟩
  · exact absurd ((hf.completeError _ _).trans (hf.withInputs s rest)) hne
  · exact absurd ((hf.hostRead _ off).trans (hf.withInputs s rest)) hne
  · exact .inr (.inl ⟨off, v, rest, hq, rfl⟩)
  · exact .inr (.inr ⟨u, rest, hq, rfl⟩)

theorem padv_unmovedByErrors : UnmovedByErrors fun s => s.status.padv := ⟨by simp, by simp, by simp⟩

theorem wign_unmovedByErrors : UnmovedByErrors fun s => s.status.wign := ⟨by simp, by simp, by simp⟩

theorem trace_unmovedByErrors : UnmovedByErrors fun s => (s.trace, s.trcnt) := ⟨by simp, by simp, by simp⟩

theorem blk_unmovedByErrors : UnmovedByErrors fun s => (s.blk0, s.blk1) := ⟨by simp, by simp, by simp⟩

/-! ## The flags of STATUS and the outputs of the commands -/

/-- A host write leaves PADV alone, and TRACE and TRCNT. -/
theorem hostWrite_outputs (s : State) (off : Nat) (v : Word) :
    (s.hostWrite off v).status.padv = s.status.padv ∧ (s.hostWrite off v).trace = s.trace ∧
      (s.hostWrite off v).trcnt = s.trcnt := by
  obtain ⟨-, h⟩ | ⟨-, -, h⟩ | ⟨-, h⟩ | ⟨hst, -, htrace, htrcnt, -⟩ := hostWrite_cases s off v
  · simp [h]
  · simp [h]
  · simp [h]
  · simp [hst, htrace, htrcnt]

/-- Settles O39: of the six ways to step only an accepted write sets BUSY, and only the engine's turn and reset clear
it. -/
theorem busyFollowsTheHandshake : Obligations.BusyFollowsTheHandshake := by
  intro s t h
  obtain ⟨rest, -, -, rfl⟩ | ⟨rest, i, hn, hb, -, he⟩ | ⟨rest, e, hn, hb, -, rfl⟩ | ⟨off, rest, -, -, rfl⟩ |
    ⟨off, v, rest, hq, -, rfl⟩ | ⟨u, rest, hq, rfl⟩ := step_next h
  · simp +contextual
  · have hcompletes : t.status.busy = false ∧ (t.status.done = true ∨ t.status.err = true) := by
      obtain ⟨e, -, rfl⟩ | ⟨-, -, rfl⟩ := exec_next he <;> simp
    exact ⟨by simp [hcompletes.1], fun _ _ => .inl ⟨rest, hn, hcompletes.2⟩⟩
  · exact ⟨by simp, fun _ _ => .inl ⟨rest, hn, by simp⟩⟩
  · simp +contextual
  · obtain ⟨-, hw⟩ | ⟨hb, hoff, hw⟩ | ⟨-, hw⟩ | ⟨hst, -⟩ := hostWrite_cases (s.withInputs rest) off v
    · simp +contextual [hw]
    · exact ⟨fun _ _ => ⟨off, v, rest, hq, hoff, by simp [hw]⟩, by simp [hw]⟩
    · simp +contextual [hw]
    · simp +contextual [hst]
  · exact ⟨by simp [Status.idle], fun _ _ => .inr ⟨u, rest, hq⟩⟩

/-- Settles O40: a completed command that changes PADV is UNPAD or DEC, and a host write changes it never. -/
theorem padvIsWrittenByUnpadDecAndReset : Obligations.PadvIsWrittenByUnpadDecAndReset := by
  intro s t h hne
  obtain ⟨rest, i, hn, hb, hd, -, rfl⟩ | ⟨off, v, rest, -, rfl⟩ | ⟨u, rest, hq, rfl⟩ :=
    step_next_of_changed padv_unmovedByErrors h hne
  · have hi : i = .unpad ∨ i = .dec := strips_of_commandEffect_padv (s := s.withInputs rest) (by simpa using hne)
    refine .inl ⟨rest, hn, hb, ?_, rfl, commandEffect_err i _⟩
    obtain rfl | rfl := hi
    · exact .inl hd
    · exact .inr hd
  · exact absurd (hostWrite_outputs _ off v).1 hne
  · exact .inr ⟨⟨u, rest, hq⟩, rfl⟩

/-- Settles O41: no command touches WIGN; of the host writes an ignored one sets it and a STATUS write clears it. -/
theorem wignIsSticky : Obligations.WignIsSticky := by
  intro s t h
  by_cases hne : t.status.wign = s.status.wign
  · simp +contextual [hne]
  obtain ⟨rest, i, -, -, -, -, rfl⟩ | ⟨off, v, rest, hq, rfl⟩ | ⟨u, rest, hq, rfl⟩ :=
    step_next_of_changed wign_unmovedByErrors h hne
  · exact absurd (commandEffect_wign i _) hne
  · obtain ⟨hb, hw⟩ | ⟨-, -, hw⟩ | ⟨hoff, hw⟩ | ⟨hst, -⟩ := hostWrite_cases (s.withInputs rest) off v
    · exact ⟨fun _ _ => ⟨hb, off, v, rest, hq, hw⟩, by simp [hw]⟩
    · simp [hw] at hne
    · exact ⟨by simp +contextual [hw], fun hs ht => .inl ⟨off, v, rest, hq, hoff, by simpa [hw, hs] using ht⟩⟩
    · simp [hst] at hne
  · exact ⟨fun _ ht => absurd ht nofun, fun _ _ => .inr ⟨u, rest, hq⟩⟩

/-- Settles O42: a completed command that changes TRACE or TRCNT is traced and has passed the key check. -/
theorem onlyTracedCommandsWriteTheTrace : Obligations.OnlyTracedCommandsWriteTheTrace := by
  intro s t h hne
  obtain ⟨rest, i, hn, hb, hd, hc, rfl⟩ | ⟨off, v, rest, -, rfl⟩ | ⟨u, rest, hq, rfl⟩ :=
    step_next_of_changed trace_unmovedByErrors h (by simpa [Prod.ext_iff, imp_iff_not_or] using hne)
  · obtain rfl | rfl := traced_of_commandEffect_trace (s := s.withInputs rest) hne
    · exact .inl ⟨rest, hn, hb, keyError_eq_none.mp hc, rfl, .inl hd⟩
    · exact .inl ⟨rest, hn, hb, keyError_eq_none.mp hc, rfl, .inr hd⟩
  · obtain ⟨-, htrace, htrcnt⟩ := hostWrite_outputs (s.withInputs rest) off v
    simp [htrace, htrcnt] at hne
  · exact .inr ⟨u, rest, hq⟩

/-- A host write that changes BLK0 or BLK1 is one to that register on an idle engine (R39, R65). -/
theorem of_hostWrite_blk {s : State} {off : Nat} {v : Word}
    (h : (s.hostWrite off v).blk0 ≠ s.blk0 ∨ (s.hostWrite off v).blk1 ≠ s.blk1) :
    s.status.busy = false ∧ (wordOffset off = 0x028 ∨ wordOffset off = 0x02C) := by
  obtain ⟨-, hw⟩ | ⟨-, -, hw⟩ | ⟨-, hw⟩ | ⟨-, -, -, -, -, hblk, -⟩ := hostWrite_cases s off v
  · simp [hw] at h
  · simp [hw] at h
  · simp [hw] at h
  · exact hblk h

/-- Settles O43: a completed command that changes BLK is a block command, and a block command has no effect on the
buffer. -/
theorem blockAndBufferCommandsAreSeparate : Obligations.BlockAndBufferCommandsAreSeparate := by
  refine ⟨fun s t h hne => ?_, fun d s t h => ?_⟩
  · obtain ⟨rest, i, hn, hb, hd, -, rfl⟩ | ⟨off, v, rest, hq, rfl⟩ | ⟨u, rest, hq, rfl⟩ :=
      step_next_of_changed blk_unmovedByErrors h (by simpa [Prod.ext_iff, imp_iff_not_or] using hne)
    · obtain ⟨d, hi⟩ := block_of_commandEffect_blk (s := s.withInputs rest) hne
      exact .inl ⟨rest, d, hn, hb, by simpa [hd] using hi⟩
    · exact .inr (.inl ⟨off, v, rest, hq, of_hostWrite_blk (s := s.withInputs rest) hne⟩)
    · exact .inr (.inr ⟨u, rest, hq⟩)
  · obtain h | h := h
    · exact exec_block_frame (.inl rfl) h
    · exact exec_block_frame (.inr rfl) h

/-! ## Writes to CMD and STATUS -/

/-- A word below 0x4000 is inside the aperture with all its four offsets (R61). -/
theorem lt_aperture {off w : Nat} (h : off - off % 4 = w) (hw : w < 0x4000) : off < Config.aperture := by
  show off < 0x4000
  omega

theorem targetAt_cmd {c : Config} {off : Nat} (h : off - off % 4 = 0x00C) : targetAt c (wordOffset off) = .cmd := by
  rw [show wordOffset off = 0x00C from h]; rfl

theorem targetAt_status {c : Config} {off : Nat} (h : off - off % 4 = 0x010) :
    targetAt c (wordOffset off) = .status := by
  rw [show wordOffset off = 0x010 from h]; rfl

/-- A write to a word that is no input of the engine is carried out, idle or busy (R65). -/
theorem step_of_write_not_input {s : State} {off : Nat} {v : Word} {rest : List Event}
    (hq : s.inputs = .write off v :: rest) (ho : off < Config.aperture)
    (hin : (targetAt s.params (wordOffset off)).isInput = false) :
    step s = .next ((s.withInputs rest).writeTarget (targetAt s.params (wordOffset off)) v) := by
  rw [step_of_write hq ho]
  simp only [State.hostWrite, State.withInputs_params, hin, Bool.and_false]
  rfl

/-- Settles O50: the three transactions at CMD, by the rules for a write and a read on an idle and on a busy engine. -/
theorem acceptanceOfACommand : Obligations.AcceptanceOfACommand := by
  intro s off c rest hoff
  have hap : off < Config.aperture := lt_aperture hoff (by decide)
  have htarget : targetAt s.params (wordOffset off) = .cmd := targetAt_cmd hoff
  refine ⟨fun hq hb => ?_, fun hq hb => ?_, fun hq => ?_⟩
  · rw [step_of_write_idle hq hb hap, htarget]; rfl
  · rw [step_of_write_busy hq hb hap, htarget]; rfl
  · cases hb : s.status.busy with
    | false => exact ⟨_, step_of_read_idle hq hb hap, by rw [htarget]; rfl⟩
    | true => exact ⟨_, step_of_read_busy hq hb hap, by rw [htarget]; rfl⟩

/-- Settles O51: STATUS is not an input of the engine, so its write is carried out on an idle and on a busy engine. -/
theorem statusIsWriteOneToClear : Obligations.StatusIsWriteOneToClear := by
  intro s off v rest hq hoff
  have hap : off < Config.aperture := lt_aperture hoff (by decide)
  have htarget : targetAt s.params (wordOffset off) = .status := targetAt_status hoff
  rw [step_of_write_not_input hq hap (by rw [htarget]; rfl), htarget]
  rfl

/-! ## The fields of a register, bit by bit (spec/10_state.md R25, R35) -/

@[simp] theorem Variant.toBit_ofBit (b : Bool) : (Variant.ofBit b).toBit = b := by cases b <;> rfl

@[simp] theorem HalfSel.toBit_ofBit (b : Bool) : (HalfSel.ofBit b).toBit = b := by cases b <;> rfl

/-- The low n bits of a word, as a mask. -/
theorem and_lowMask (v : Word) (n : Nat) :
    v &&& BitVec.ofNat 32 (2 ^ n - 1) = (v.extractLsb' 0 n).setWidth 32 := by
  refine BitVec.eq_of_getLsbD_eq fun i hi => ?_
  rw [BitVec.getLsbD_and, BitVec.getLsbD_ofNat, Nat.testBit_two_pow_sub_one]
  simp [hi, Bool.and_comm]

/-- CFG, bit by bit (R25). -/
theorem CfgReg.getLsbD_toWord (c : CfgReg) (i : Nat) :
    c.toWord.getLsbD i =
      if i < 8 then c.rounds.getLsbD i
      else if i = 8 then c.var.toBit else if i = 9 then c.opsel.toBit else false := by
  unfold CfgReg.toWord
  rw [BitVec.getLsbD_append, BitVec.getLsbD_append, BitVec.getLsbD_append]
  by_cases h : i < 8
  · simp [h]
  · obtain ⟨k, rfl⟩ := Nat.exists_eq_add_of_le' (Nat.not_lt.mp h)
    obtain _ | _ | k := k <;> simp

/-- IRQEN, bit by bit (R35). -/
theorem IrqEn.getLsbD_toWord (e : IrqEn) (i : Nat) :
    e.toWord.getLsbD i = if i = 0 then e.doneie else if i = 1 then e.errie else false := by
  unfold IrqEn.toWord
  rw [BitVec.getLsbD_append, BitVec.getLsbD_append]
  obtain _ | _ | i := i <;> simp

/-- CFG keeps bits [9:0] of a write (R25). -/
theorem CfgReg.toWord_ofWord (v : Word) : (CfgReg.ofWord v).toWord = v &&& 0x3FF := by
  rw [show v &&& 0x3FF = (v.extractLsb' 0 10).setWidth 32 from and_lowMask v 10]
  refine BitVec.eq_of_getLsbD_eq fun i hi => ?_
  rw [CfgReg.getLsbD_toWord, CfgReg.ofWord]
  by_cases h : i < 8
  · simp [h, hi, show i < 10 by omega]
  · obtain ⟨k, rfl⟩ := Nat.exists_eq_add_of_le' (Nat.not_lt.mp h)
    obtain _ | _ | k := k <;> simp

/-- IRQEN keeps bits [1:0] of a write (R35). -/
theorem IrqEn.toWord_ofWord (v : Word) : (IrqEn.ofWord v).toWord = v &&& 0x3 := by
  rw [show v &&& 0x3 = (v.extractLsb' 0 2).setWidth 32 from and_lowMask v 2]
  refine BitVec.eq_of_getLsbD_eq fun i hi => ?_
  rw [IrqEn.getLsbD_toWord, IrqEn.ofWord]
  obtain _ | _ | i := i <;> simp

/-! ## Registers read back what was written to their defined fields (spec/20_memory.md R62) -/

/-- The defined fields of a word that holds what the host writes to it, as a mask (R25, R35 to R37, R39, R40, R60). CMD,
STATUS and the words that the host cannot write have none. -/
def Target.fieldMask : Target → Option Word
  | .cfg | .keylen => some 0x3FF
  | .irqen => some 0x3
  | .mlen => some 0xFFFF
  | .blk0 | .blk1 | .key _ | .buf _ => some 0xFFFFFFFF
  | .id | .caps | .cmd | .status | .trcnt | .traceHi _ | .traceLo _ | .reserved => none

/-- A word reads back what was written to its defined fields. -/
theorem readTarget_writeTarget {s : State} (hs : s.Inv) {t : Target} (ht : t.Exists s.params) {mask : Word}
    (hm : t.fieldMask = some mask) (v : Word) : (s.writeTarget t v).readTarget t = v &&& mask := by
  obtain ⟨-, hkey, -, ⟨hwf, -⟩, -⟩ := hs
  have all : v &&& 0xFFFFFFFF = v := BitVec.and_allOnes
  cases t with
  | cfg => cases hm; exact CfgReg.toWord_ofWord v
  | irqen => cases hm; exact IrqEn.toWord_ofWord v
  | keylen => cases hm; exact (and_lowMask v 10).symm
  | mlen => cases hm; exact (and_lowMask v 16).symm
  | blk0 | blk1 => cases hm; exact all.symm
  | key w =>
    cases hm
    have hw : w < s.key.length := by rw [hkey]; exact ht
    simpa [State.writeTarget, State.readTarget, hw] using all.symm
  | buf a => cases hm; exact (Memory.memRead_memWrite hwf a 4 v).trans all.symm
  | id | caps | cmd | status | trcnt | traceHi | traceLo | reserved => cases hm

/-- Writing such a word neither accepts a command nor changes the parameters. -/
theorem writeTarget_of_fieldMask (s : State) {t : Target} {mask : Word} (hm : t.fieldMask = some mask) (v : Word) :
    (s.writeTarget t v).status = s.status ∧ (s.writeTarget t v).params = s.params ∧
      (s.writeTarget t v).inputs = s.inputs := by
  cases t with
  | cmd | status => cases hm
  | _ => exact ⟨rfl, rfl, rfl⟩

/-- The offsets of the words that hold what the host writes to them (R22). -/
theorem targetAt_of_fieldMask {c : Config} (hl : c.Legal) {w : Nat} {mask : Word} (h4 : w % 4 = 0)
    (h : w = 0x008 ∧ mask = 0x3FF ∨ w = 0x014 ∧ mask = 0x3 ∨ w = 0x018 ∧ mask = 0x3FF ∨ w = 0x01C ∧ mask = 0xFFFF ∨
      (w = 0x028 ∨ w = 0x02C ∨ (0x100 ≤ w ∧ w < 0x100 + 4 * c.keyWords) ∨
        (0x2000 ≤ w ∧ w < 0x2000 + c.bufBytes)) ∧ mask = 0xFFFFFFFF) :
    (targetAt c w).Exists c ∧ (targetAt c w).fieldMask = some mask := by
  obtain ⟨rfl, rfl⟩ | ⟨rfl, rfl⟩ | ⟨rfl, rfl⟩ | ⟨rfl, rfl⟩ | ⟨rfl | rfl | hkey | hbuf, rfl⟩ := h
  iterate 6 exact ⟨trivial, rfl⟩
  · have hk : (w - 0x100) / 4 < c.keyWords := by omega
    rw [targetAt_key hl hk (by omega)]
    exact ⟨hk, rfl⟩
  · have ha : w - 0x2000 < c.bufBytes := by omega
    rw [targetAt_buf ha (by omega)]
    exact ⟨⟨by omega, ha⟩, rfl⟩

/-- Settles O52: the write is carried out and leaves the engine idle, so the read that follows is of the same word. -/
theorem registersReadBackTheirFields : Obligations.RegistersReadBackTheirFields := by
  intro s o r v mask rest hs hb hsame hq w hw
  have hl : s.params.Legal := hs.1
  obtain ⟨hexists, hmask⟩ := targetAt_of_fieldMask hl (wordOffset_mod o) hw
  have hbelow : w < 0x4000 := by
    have hkeys := keyWords_le hl
    obtain ⟨-, -, -, -, -, hsize⟩ := hl
    omega
  obtain ⟨hst, hparams, hinputs⟩ := writeTarget_of_fieldMask (s.withInputs (.read r :: rest)) hmask v
  refine ⟨_, step_of_write_idle hq hb (lt_aperture rfl hbelow), ?_⟩
  rw [step_of_read_idle hinputs (by rw [hst]; exact hb) (lt_aperture hsame.symm hbelow), hparams,
    State.withInputs_params, show wordOffset r = wordOffset o from hsame.symm,
    readTarget_writeTarget (inv_withInputs hs _) hexists hmask v]

/-! ## The key as bytes (spec/10_state.md R40) -/

/-- Settles O54: key bit 8k + b lies in word k div 4, at bit 31 - 8 (k mod 4) - b. -/
theorem keyBytesArePackedBigEndian : Obligations.KeyBytesArePackedBigEndian := by
  intro key k b hk hb
  have hword : k / 4 < key.length := by omega
  have hbit : 24 - 8 * (k % 4) + (7 - b) = 31 - (8 * k + b) % 32 := by omega
  refine ⟨key[k / 4], List.getElem?_eq_getElem hword, ?_⟩
  rw [keyBit, show (8 * k + b) / 32 = k / 4 by omega, List.getD_eq_getElem _ _ hword, BitVec.getLsbD_extractLsb',
    hbit, decide_eq_true (show 7 - b < 8 by omega), Bool.true_and]

/-! ## Reset (spec/10_state.md R43) -/

/-- The cells that give the bytes 0, …, n-1 of BUF the values of `f`. -/
def cellsOf (f : Nat → Byte) (n : Nat) : List Host.Cell := (List.range n).map fun a => (a, f a)

theorem Memory.ofCells_cellsOf_succ (f : Nat → Byte) {size n : Nat} (h : n < size) :
    Memory.ofCells size (cellsOf f (n + 1)) = (Memory.ofCells size (cellsOf f n)).write n (f n) := by
  simp [Memory.ofCells, cellsOf, List.range_succ, h]

theorem Memory.read_ofCells_cellsOf (f : Nat → Byte) {size n a : Nat} (hn : n ≤ size) (ha : a < n) :
    (Memory.ofCells size (cellsOf f n)).read a = f a := by
  induction n with
  | zero => omega
  | succ n ih =>
    rw [Memory.ofCells_cellsOf_succ f hn, Memory.read_write (Memory.wf_ofCells _ _)]
    split
    · next h => rw [h]
    · exact ih (by omega) (by omega)

theorem traceOf_of_length {entries : List Block} (h : entries.length = Config.traceDepth) :
    traceOf entries = entries := by
  simp [traceOf, h, List.take_of_length_le]

/-- Settles O59: the reset event that carries the wanted contents. -/
theorem resetCanLeaveAnyContents : Obligations.ResetCanLeaveAnyContents := by
  intro s rest bytes entries c hlen
  refine ⟨{ buf := cellsOf bytes s.params.bufBytes, trace := entries, curcmd := c }, _, step_of_reset rfl,
    fun a ha => ?_, traceOf_of_length hlen, rfl⟩
  exact Memory.read_ofCells_cellsOf bytes le_rfl ha

/-- Settles O35: the reference parameters are legal, KEY and TRACE have their sizes, and BUF lists no byte. -/
theorem resetMeetsTheInvariant : Obligations.ResetMeetsTheInvariant :=
  ⟨by decide, List.length_replicate, List.length_replicate, ⟨Memory.wf_empty, nofun⟩, Status.wf_idle⟩

/-- Settles O60: every register of `State.reset` is written out there. -/
theorem resetStateRegisters : Obligations.ResetStateRegisters :=
  ⟨rfl, rfl, rfl, rfl, rfl, rfl, rfl, rfl, rfl, rfl, rfl⟩

end Sys2Proof.Machine
end

section
/-! SUPPORT. The host's transactions (spec/20_memory.md): which steps are refused, what can move while the engine is busy,
and what a Read and a Write do then. -/

namespace Sys2Proof.Machine

/-! ## Refusals (R61) -/

theorem engineTurn_ne_refused (s : State) (r : Refusal) : engineTurn s ≠ .refused r := by
  unfold engineTurn completeCommand
  split
  · cases decode s.curcmd with
    | ok i => exact exec_ne_refused i s r
    | error e => exact nofun
  · exact nofun

theorem atOffset_refused {off : Nat} {s : State} {r : Refusal} :
    atOffset off s = .refused r ↔ Config.aperture ≤ off ∧ r = .outsideAperture off := by
  unfold atOffset
  split
  · next h => simp [Nat.not_le.mpr h]
  · next h => simp [Nat.not_lt.mp h, eq_comm]

/-- Settles O37: the engine's turn and reset refuse nothing, and a transaction is refused by its offset alone. -/
theorem onlyOffsetsOutsideTheApertureAreRefused : Obligations.OnlyOffsetsOutsideTheApertureAreRefused := by
  intro s r
  cases hq : s.inputs with
  | nil => simp [step, takeStep, hq, engineTurn_ne_refused]
  | cons e rest =>
    cases e with
    | read off | write off v => simp [step, takeStep, hq, takeEvent, atOffset_refused]
    | engine => simp [step, takeStep, hq, takeEvent, engineTurn_ne_refused]
    | reset u => simp [step, takeStep, hq, takeEvent]

/-! ## Low offset bits (R61) -/

theorem hostRead_wordOffset (s : State) (off : Nat) : s.hostRead (wordOffset off) = s.hostRead off := by
  simp only [State.hostRead, wordOffset_wordOffset]

theorem hostWrite_wordOffset (s : State) (off : Nat) (v : Word) :
    s.hostWrite (wordOffset off) v = s.hostWrite off v := by
  simp only [State.hostWrite, wordOffset_wordOffset]

/-- Settles O53: rounding down keeps an offset inside the aperture, and a transaction sees the rounded offset only. -/
theorem lowOffsetBitsAreIgnored : Obligations.LowOffsetBitsAreIgnored := by
  intro s off v rest ho
  have how : wordOffset off < Config.aperture := Nat.lt_of_le_of_lt (Nat.sub_le off _) ho
  constructor
  · rw [step_of_read rfl ho, step_of_read rfl how, hostRead_wordOffset]
    rfl
  · rw [step_of_write rfl ho, step_of_write rfl how, hostWrite_wordOffset]
    rfl

/-! ## A busy engine (R65, R70) -/

/-- On a busy engine a host write moves at most IRQEN and the STATUS bits other than BUSY and PADV. -/
theorem hostWrite_busy {s : State} (hb : s.status.busy = true) (off : Nat) (v : Word) :
    ∃ st e, s.hostWrite off v = { s with status := st, irqen := e } ∧ st.padv = s.status.padv := by
  obtain ⟨-, hw⟩ | ⟨hidle, -, -⟩ | ⟨-, hw⟩ | ⟨-, -, -, -, -, -, hw⟩ := hostWrite_cases s off v
  · exact ⟨s.status.ignored, s.irqen, hw, rfl⟩
  · simp [hb] at hidle
  · exact ⟨s.status.clear v, s.irqen, hw, rfl⟩
  · obtain ⟨e, he⟩ := hw hb
    exact ⟨s.status, e, he, rfl⟩

/-- A step that begins and ends busy is a host transaction: the engine's turn and reset end idle. -/
theorem step_next_of_busy {s t : State} (h : step s = .next t) (hs : s.status.busy = true)
    (ht : t.status.busy = true) :
    (∃ off rest, t = (s.withInputs rest).hostRead off) ∨
      ∃ off v rest, t = (s.withInputs rest).hostWrite off v := by
  obtain ⟨rest, -, hidle, -⟩ | ⟨rest, i, -, -, -, he⟩ | ⟨rest, e, -, -, -, rfl⟩ | ⟨off, rest, -, -, rfl⟩ |
    ⟨off, v, rest, -, -, rfl⟩ | ⟨u, rest, -, rfl⟩ := step_next h
  · simp [hs] at hidle
  · obtain ⟨e, -, rfl⟩ | ⟨-, -, rfl⟩ := exec_next he <;> simp at ht
  · simp at ht
  · exact .inl ⟨off, rest, rfl⟩
  · exact .inr ⟨off, v, rest, rfl⟩
  · cases ht

/-- Settles O45: such a step is a Read, or a Write that moves at most IRQEN and STATUS without PADV. -/
theorem nothingMovesWhileBusy : Obligations.NothingMovesWhileBusy := by
  intro s t h hs ht
  obtain ⟨off, rest, rfl⟩ | ⟨off, v, rest, rfl⟩ := step_next_of_busy h hs ht
  · simp
  · obtain ⟨st, e, hw, hpadv⟩ := hostWrite_busy (s := s.withInputs rest) hs off v
    simpa [hw] using hpadv

/-! ## The words of the aperture by what the host may do with them (R22, R65, R66) -/

/-- The words that a write leaves as they are, idle or busy (R182). -/
def Target.isReadOnly : Target → Bool
  | .id | .caps | .trcnt | .traceHi _ | .traceLo _ | .reserved => true
  | .cfg | .cmd | .status | .irqen | .keylen | .mlen | .blk0 | .blk1 | .key _ | .buf _ => false

theorem writeTarget_of_isReadOnly (s : State) {t : Target} (h : t.isReadOnly = true) (v : Word) :
    s.writeTarget t v = s := by
  cases t with
  | id | caps | trcnt | traceHi | traceLo | reserved => rfl
  | _ => cases h

theorem isInput_of_isReadOnly {t : Target} (h : t.isReadOnly = true) : t.isInput = false := by
  cases t with
  | id | caps | trcnt | traceHi | traceLo | reserved => rfl
  | _ => cases h

theorem targetAt_trace (c : Config) {w : Nat} (h4 : w % 4 = 0) (h : 0x1000 ≤ w ∧ w < 0x17F8) :
    ∃ j, targetAt c w = .traceHi j ∨ targetAt c w = .traceLo j := by
  have hj : (w - 0x1000) / 8 < 255 := by omega
  obtain h8 | h8 : w % 8 = 0 ∨ w % 8 = 4 := by omega
  · exact ⟨_, .inl (targetAt_traceHi hj (by omega))⟩
  · exact ⟨_, .inr (targetAt_traceLo hj (by omega))⟩

section
variable {c : Config} {w : Nat}

/-- The words whose reads are free while busy (R66). -/
theorem targetAt_isOutput (h4 : w % 4 = 0)
    (h : w = 0x01C ∨ w = 0x020 ∨ w = 0x028 ∨ w = 0x02C ∨ (0x1000 ≤ w ∧ w < 0x17F8) ∨
      (0x2000 ≤ w ∧ w < 0x2000 + c.bufBytes)) : (targetAt c w).isOutput = true := by
  obtain rfl | rfl | rfl | rfl | htrace | hbuf := h
  iterate 4 rfl
  · obtain ⟨j, hj | hj⟩ := targetAt_trace c h4 htrace <;> rw [hj] <;> rfl
  · rw [targetAt_buf (a := w - 0x2000) (by omega) (by omega)]
    rfl

/-- The words whose writes are ignored while busy (R65). -/
theorem targetAt_isInput (hl : c.Legal) (h4 : w % 4 = 0)
    (h : w = 0x008 ∨ w = 0x00C ∨ w = 0x018 ∨ w = 0x01C ∨ w = 0x028 ∨ w = 0x02C ∨
      (0x100 ≤ w ∧ w < 0x100 + 4 * c.keyWords) ∨ (0x2000 ≤ w ∧ w < 0x2000 + c.bufBytes)) :
    (targetAt c w).isInput = true := by
  obtain rfl | rfl | rfl | rfl | rfl | rfl | hkey | hbuf := h
  iterate 6 rfl
  · rw [targetAt_key hl (k := (w - 0x100) / 4) (by omega) (by omega)]
    rfl
  · rw [targetAt_buf (a := w - 0x2000) (by omega) (by omega)]
    rfl

/-- The words that no write changes (R182). -/
theorem targetAt_isReadOnly (hl : c.Legal) (h4 : w % 4 = 0)
    (h : w = 0x000 ∨ w = 0x004 ∨ w = 0x020 ∨ w = 0x024 ∨ (0x030 ≤ w ∧ w < 0x100) ∨
      (0x100 + 4 * c.keyWords ≤ w ∧ w < 0x2000) ∨ 0x2000 + c.bufBytes ≤ w) :
    (targetAt c w).isReadOnly = true := by
  by_cases htrace : 0x1000 ≤ w ∧ w < 0x17F8
  · obtain ⟨j, hj | hj⟩ := targetAt_trace c h4 htrace <;> rw [hj] <;> rfl
  · obtain rfl | rfl | rfl | h := h
    iterate 3 rfl
    rw [targetAt_reserved hl h4 (by omega)]
    rfl

end

/-! ## Registers as numbers (spec/10_state.md R24, R25, R28, R35) -/

/-- R9: in `a ‖ b` the bits of `a` are the more significant ones. -/
theorem toNat_append_eq_add {m n : Nat} (a : BitVec m) (b : BitVec n) :
    (a ++ b).toNat = 2 ^ n * a.toNat + b.toNat := by
  rw [BitVec.toNat_append, ← Nat.shiftLeft_add_eq_or_of_lt b.isLt, Nat.shiftLeft_eq, Nat.mul_comm]

theorem toNat_capsWord {c : Config} (hl : c.Legal) :
    (capsWord c).toNat = 65536 * c.bufBytes + c.keyMaxBits := by
  obtain ⟨-, -, hkey, -, -, hbuf⟩ := hl
  simp only [capsWord, toNat_append_eq_add, BitVec.toNat_ofNat]
  omega

theorem Variant.toNat_toBit (x : Variant) : x.toBit.toNat = if x = .xorHalf then 1 else 0 := by
  cases x <;> rfl

theorem HalfSel.toNat_toBit (x : HalfSel) : x.toBit.toNat = if x = .left then 1 else 0 := by
  cases x <;> rfl

theorem CfgReg.toNat_toWord (c : CfgReg) :
    c.toWord.toNat = c.rounds.toNat + 256 * (if c.var = .xorHalf then 1 else 0) +
      512 * (if c.opsel = .left then 1 else 0) := by
  simp only [CfgReg.toWord, toNat_append_eq_add, BitVec.toNat_ofBool, BitVec.toNat_ofNat, Variant.toNat_toBit,
    HalfSel.toNat_toBit]
  omega

theorem IrqEn.toNat_toWord (e : IrqEn) : e.toWord.toNat = e.doneie.toNat + 2 * e.errie.toNat := by
  simp only [IrqEn.toWord, toNat_append_eq_add, BitVec.toNat_ofBool, BitVec.toNat_ofNat]
  omega

theorem Status.toNat_toWord (st : Status) :
    st.toWord.toNat = st.busy.toNat + 2 * st.done.toNat + 4 * st.err.toNat + 8 * st.wign.toNat +
      16 * st.padv.toNat + 256 * st.errcode.toBits.toNat := by
  simp only [Status.toWord, toNat_append_eq_add, BitVec.toNat_ofBool, BitVec.toNat_ofNat]
  omega

/-! ## What a Read answers while busy (R66) -/

section
variable {s : State} {t : Target}

theorem readBusy_of_isOutput (h : t.isOutput = true) : s.readBusy t = Config.freeRead s.draws := if_pos h

theorem readBusy_status :
    s.readBusy .status = ({ s.status with padv := Config.freePadv s.draws } : Status).toWord := rfl

theorem readBusy_eq_readTarget (hout : t.isOutput = false) (hst : t ≠ .status) : s.readBusy t = s.readTarget t := by
  rw [State.readBusy, hout, if_neg nofun, if_neg hst]

end

/-- Settles O47: a busy Read answers by the kind of its word, and the map says which word has which kind. -/
theorem readWhileBusy : Obligations.ReadWhileBusy := by
  intro s off rest hs hq hb ho w
  obtain ⟨hl, hkey, -⟩ := hs
  have h4 : w % 4 = 0 := wordOffset_mod off
  refine ⟨_, step_of_read_busy hq hb ho, ?_⟩
  rw [show wordOffset off = w from rfl]
  clear_value w
  refine ⟨fun h => readBusy_of_isOutput (targetAt_isOutput h4 h), ?_, ?_, ?_, ?_, ?_, ?_, fun k hk h => ?_, ?_⟩
  · rintro rfl
    show (s.readBusy .status).toNat = _
    rw [readBusy_status, Status.toNat_toWord, hb]
    rfl
  · rintro rfl; rfl
  · rintro rfl; exact toNat_capsWord hl
  · rintro rfl; exact CfgReg.toNat_toWord s.cfg
  · rintro rfl; exact IrqEn.toNat_toWord s.irqen
  · rintro rfl; exact BitVec.toNat_setWidth_of_le (show 10 ≤ 32 by decide)
  · have hlen : k < s.key.length := by rw [hkey]; exact hk
    rw [targetAt_key hl hk h, readBusy_eq_readTarget (t := .key k) rfl nofun]
    simp [State.readTarget, hlen]
  · rintro (rfl | h)
    · rfl
    · rw [targetAt_reserved hl h4 h]; rfl

/-! ## What a Write does while busy (R65) -/

/-- A STATUS write as conjunctions (R32). -/
theorem Status.clear_eq (st : Status) (v : Word) :
    st.clear v = { st with
      done := st.done && !v.getLsbD 1
      err := st.err && !v.getLsbD 2
      errcode := if v.getLsbD 2 then .none else st.errcode
      wign := st.wign && !v.getLsbD 3 } := by
  simp [Status.clear, Bool.and_comm]

theorem step_of_write_ignored {s : State} {off : Nat} {v : Word} {rest : List Event}
    (hq : s.inputs = .write off v :: rest) (hb : s.status.busy = true) (ho : off < Config.aperture)
    (h : (targetAt s.params (wordOffset off)).isInput = true) :
    step s = .next { s.withInputs rest with status := s.status.ignored } := by
  rw [step_of_write_busy hq hb ho, if_pos h]

theorem step_of_write_readOnly {s : State} {off : Nat} {v : Word} {rest : List Event}
    (hq : s.inputs = .write off v :: rest) (ho : off < Config.aperture)
    (h : (targetAt s.params (wordOffset off)).isReadOnly = true) :
    step s = .next (s.withInputs rest) := by
  rw [step_of_write_not_input hq ho (isInput_of_isReadOnly h), writeTarget_of_isReadOnly _ h]

/-- Settles O49: the word's kind decides: an input of the engine is ignored, STATUS and IRQEN are carried out, and the
others are read-only. -/
theorem writeWhileBusy : Obligations.WriteWhileBusy := by
  intro s off v rest hl hq hb ho w q
  have h4 : w % 4 = 0 := wordOffset_mod off
  refine ⟨fun h => ?_, fun h => ?_, fun h => ?_, fun h => ?_⟩
  · exact step_of_write_ignored hq hb ho (targetAt_isInput hl h4 h)
  · rw [← Status.clear_eq]
    exact statusIsWriteOneToClear s off v rest hq h
  · have htarget : targetAt s.params (wordOffset off) = .irqen := by
      rw [show wordOffset off = 0x014 from h]; rfl
    rw [step_of_write_not_input hq ho (by rw [htarget]; rfl), htarget]
    rfl
  · exact step_of_write_readOnly hq ho (targetAt_isReadOnly hl h4 h)

end Sys2Proof.Machine
end

section
/-! SUPPORT. Command words (spec/30_encoding.md): a word is its three fields, a command is the fields that the decoder
reads for it, and the statements about single words, the legal words and the opcode table follow. -/

namespace Sys2Proof

/-! ## A word and its fields (R81) -/

@[simp] theorem packFields_fieldsOf (c : Word) : packFields (fieldsOf c) = c := by
  have ht : BitVec.ofBool (c.getLsbD 4) = c.extractLsb' 4 1 := by
    ext i hi
    simp [show i = 0 by omega]
  calc packFields (fieldsOf c)
    _ = c.extractLsb' 5 27 ++ c.extractLsb' 4 1 ++ c.extractLsb' 0 4 := by rw [← ht]; rfl
    _ = c.extractLsb' 4 28 ++ c.extractLsb' 0 4 := by
      rw [BitVec.extractLsb'_append_extractLsb'_eq_extractLsb' (show 5 = 4 + 1 from rfl)]
    _ = c.extractLsb' 0 32 := BitVec.extractLsb'_append_extractLsb'_eq_extractLsb' rfl
    _ = c := BitVec.extractLsb'_eq_self

@[simp] theorem fieldsOf_packFields (f : CmdFields) : fieldsOf (packFields f) = f := by
  have hopc : (packFields f).extractLsb' 0 4 = f.opc := BitVec.extractLsb'_append_eq_right
  have ht : (packFields f).getLsbD 4 = f.t := by
    rw [packFields, BitVec.getLsbD_append, BitVec.getLsbD_append]
    simp
  have hrsv : (packFields f).extractLsb' 5 27 = f.rsv :=
    (BitVec.extractLsb'_append_eq_of_le (by decide)).trans BitVec.extractLsb'_append_eq_left
  rw [fieldsOf, hopc, ht, hrsv]

theorem packFields_inj {f g : CmdFields} : packFields f = packFields g ↔ f = g :=
  ⟨fun h => by rw [← fieldsOf_packFields f, h, fieldsOf_packFields], congrArg packFields⟩

theorem fieldsOf_eq_iff {c : Word} {f : CmdFields} : fieldsOf c = f ↔ c = packFields f := by
  rw [← packFields_inj, packFields_fieldsOf]

/-! ## What the decoder reads (R82, R84) -/

theorem decode_eq_ite (c : Word) :
    decode c =
      if (fieldsOf c).rsv = 0 then instrOf (fieldsOf c).opc.toNat (fieldsOf c).t else .error .reservedBits := rfl

/-- Every line of the opcode map that yields a command is that command's own OPC and T. -/
theorem fields_of_instrOf_eq_ok {opc : BitVec 4} {t : Bool} {i : Instr} (h : instrOf opc.toNat t = .ok i) :
    i.fields = { opc := opc, t := t, rsv := 0 } := by
  suffices hmap : ∀ {n : Nat}, instrOf n t = .ok i → i.fields = { opc := BitVec.ofNat 4 n, t := t, rsv := 0 } by
    simpa using hmap h
  intro n h
  unfold instrOf at h
  split at h
  case h_10 => split at h <;> cases h
  all_goals cases h; rfl

theorem fieldsOf_of_decode_eq_ok {c : Word} {i : Instr} (h : decode c = .ok i) : fieldsOf c = i.fields := by
  rw [decode_eq_ite] at h
  split at h
  case isTrue hrsv => rw [fields_of_instrOf_eq_ok h, ← hrsv]
  case isFalse => cases h

theorem decode_encode (i : Instr) : decode (encode i) = .ok i := by
  have hword : Laws.EncodedWord.Statement i := by
    cases i with
    | nop => exact Laws.EncodedWord.nop
    | encb t => exact Laws.EncodedWord.encb t
    | decb t => exact Laws.EncodedWord.decb t
    | pad => exact Laws.EncodedWord.pad
    | unpad => exact Laws.EncodedWord.unpad
    | encm => exact Laws.EncodedWord.encm
    | decm => exact Laws.EncodedWord.decm
    | enc => exact Laws.EncodedWord.enc
    | dec => exact Laws.EncodedWord.dec
  obtain ⟨-, -, hdecode⟩ := hword
  exact hdecode

theorem decode_eq_ok_iff {c : Word} {i : Instr} : decode c = .ok i ↔ c = encode i := by
  constructor
  · exact fun h => fieldsOf_eq_iff.mp (fieldsOf_of_decode_eq_ok h)
  · rintro rfl
    exact decode_encode i

/-- Settles O1: the decoder reads the three fields and the encoder packs them, and a word is its fields. -/
theorem decodeAgreesWithEncode : Obligations.DecodeAgreesWithEncode :=
  fun _ _ => decode_eq_ok_iff

theorem encode_injective : Function.Injective encode := fun i j h => by
  have hok : Except.ok i = Except.ok (ε := DecodeError) j := by rw [← decode_encode i, h, decode_encode]
  exact Except.ok.inj hok

/-! ## The legal words (R85) -/

/-- The commands, with both values of T, in the order of the rows of R82. -/
def Instr.all : List Instr :=
  [.nop, .encb false, .encb true, .decb false, .decb true, .pad, .unpad, .encm, .decm, .enc, .dec]

theorem Instr.nodup_all : Instr.all.Nodup := by decide

theorem Instr.mem_all (i : Instr) : i ∈ Instr.all := by
  cases i with
  | encb t => cases t <;> decide
  | decb t => cases t <;> decide
  | _ => decide

theorem exists_decode_eq_ok_iff {c : Word} : (∃ i, decode c = .ok i) ↔ c ∈ Instr.all.map encode := by
  simp only [decode_eq_ok_iff, List.mem_map, Instr.mem_all, true_and, eq_comm (b := c)]

/-- Settles O2: the eleven words are the encodings of the eleven commands. -/
theorem exactlyElevenWordsAreLegal : Obligations.ExactlyElevenWordsAreLegal := by
  have hwords : [0x00000000, 0x00000001, 0x00000011, 0x00000002, 0x00000012, 0x00000003, 0x00000004, 0x00000005,
      0x00000006, 0x00000007, 0x00000008] = Instr.all.map encode := by decide
  unfold Obligations.ExactlyElevenWordsAreLegal
  rw [hwords]
  exact ⟨rfl, Instr.nodup_all.map encode_injective, fun c => exists_decode_eq_ok_iff⟩

/-! ## The rows of the opcode table (R88) -/

/-- A row without T compares the whole word. -/
theorem selects_plainRow_iff {c w : Word} {i : Instr} (hw : w = encode i) :
    c &&& 0xFFFFFFFF#32 = w ↔ decode c = .ok i := by
  rw [show 0xFFFFFFFF#32 = BitVec.allOnes 32 from rfl, BitVec.and_allOnes, decode_eq_ok_iff, hw]

/-- The mask of a row with T clears the T field and keeps the other two. -/
theorem and_traceMask (c : Word) : c &&& 0xFFFFFFEF#32 = packFields { fieldsOf c with t := false } := by
  have hmask : 0xFFFFFFEF#32 = BitVec.allOnes 27 ++ 0#1 ++ BitVec.allOnes 4 := rfl
  conv_lhs => rw [← packFields_fieldsOf c, packFields, hmask]
  rw [BitVec.and_append, BitVec.and_append, BitVec.and_allOnes, BitVec.and_allOnes, BitVec.and_zero]
  rfl

/-- A row with T compares OPC and RSV and leaves T free. -/
theorem selects_tracedRow_iff {c : Word} (opc : BitVec 4) :
    c &&& 0xFFFFFFEF#32 = packFields { opc := opc, t := false, rsv := 0 } ↔
      ∃ t, c = packFields { opc := opc, t := t, rsv := 0 } := by
  simp only [and_traceMask, packFields_inj, ← fieldsOf_eq_iff (c := c)]
  cases fieldsOf c
  simp

theorem selects_encbRow_iff {c : Word} :
    c &&& 0xFFFFFFEF#32 = 0x00000001#32 ↔ ∃ t, decode c = .ok (.encb t) := by
  simp only [decode_eq_ok_iff]
  exact selects_tracedRow_iff 1

theorem selects_decbRow_iff {c : Word} :
    c &&& 0xFFFFFFEF#32 = 0x00000002#32 ↔ ∃ t, decode c = .ok (.decb t) := by
  simp only [decode_eq_ok_iff]
  exact selects_tracedRow_iff 2

/-- Settles O3: each row selects its command, and the decoder answers an error exactly when it answers no command. -/
theorem opcodeTableSelectsTheCommand : Obligations.OpcodeTableSelectsTheCommand := by
  intro c
  have hnop := selects_plainRow_iff (c := c) (show 0x00000000#32 = encode .nop from rfl)
  have hpad := selects_plainRow_iff (c := c) (show 0x00000003#32 = encode .pad from rfl)
  have hunpad := selects_plainRow_iff (c := c) (show 0x00000004#32 = encode .unpad from rfl)
  have hencm := selects_plainRow_iff (c := c) (show 0x00000005#32 = encode .encm from rfl)
  have hdecm := selects_plainRow_iff (c := c) (show 0x00000006#32 = encode .decm from rfl)
  have henc := selects_plainRow_iff (c := c) (show 0x00000007#32 = encode .enc from rfl)
  have hdec := selects_plainRow_iff (c := c) (show 0x00000008#32 = encode .dec from rfl)
  refine ⟨hnop, selects_encbRow_iff, selects_decbRow_iff, hpad, hunpad, hencm, hdecm, henc, hdec, ?_⟩
  simp only [List.forall_mem_cons, ne_eq, hnop, selects_encbRow_iff, selects_decbRow_iff, hpad, hunpad, hencm, hdecm,
    henc, hdec]
  cases decode c with
  | error e => simp
  | ok i => cases i <;> simp

/-- Settles O4: the legal words are encodings, and each illegal one fails one check of R84. -/
theorem writtenWordsDecode : Obligations.WrittenWordsDecode :=
  ⟨decode_encode .nop, decode_encode (.encb false), decode_encode (.encb true), decode_encode (.decb true),
    decode_encode .unpad, decode_encode .dec, rfl, rfl, rfl⟩

end Sys2Proof
end

section
/-! SUPPORT. Padding (spec/40_padding.md): which sequences the strip recognises, when the pad fits the buffer, and what
PAD and UNPAD do when their checks pass. -/

namespace Sys2Proof.Machine

/-! ## What the strip recognises (R102) -/

/-- v bytes of value v are stripped, whatever stands before them. -/
theorem unpadSeq_append_replicate (y : List Byte) {v : Nat} (hpos : 1 ≤ v) (hle : v ≤ 8) :
    unpadSeq (y ++ List.replicate v (BitVec.ofNat 8 v)) = (y, true) := by
  have hlast : (y ++ List.replicate v (BitVec.ofNat 8 v)).getLast? = some (BitVec.ofNat 8 v) := by
    rw [List.getLast?_append, List.getLast?_replicate, if_neg (by omega), Option.some_or]
  have hval : (BitVec.ofNat 8 v).toNat = v := (BitVec.toNat_ofNat v 8).trans (Nat.mod_eq_of_lt (by omega))
  have hlen : (y ++ List.replicate v (BitVec.ofNat 8 v)).length = y.length + v := by simp
  rw [unpadSeq, hlast]
  dsimp only
  rw [hval, hlen, Nat.add_sub_cancel, List.drop_left, List.take_left, if_neg (by omega), if_neg (by omega),
    if_pos (by simp)]

/-- A sequence that does not end in a pad comes back unchanged and unrecognised. -/
theorem unpadSeq_unchanged_or_padded (x : List Byte) :
    unpadSeq x = (x, false) ∨
      ∃ y v, 1 ≤ v ∧ v ≤ 8 ∧ x = y ++ List.replicate v (BitVec.ofNat 8 v) := by
  unfold unpadSeq
  split
  case h_1 => exact .inl rfl
  case h_2 v _ =>
    split
    case isTrue => exact .inl rfl
    case isFalse hv =>
      split
      case isTrue => exact .inl rfl
      case isFalse hlen =>
        split
        case isFalse => exact .inl rfl
        case isTrue hall =>
          have hpad : x.drop (x.length - v.toNat) = List.replicate v.toNat v :=
            List.eq_replicate_iff.mpr ⟨by rw [List.length_drop]; omega, by simpa using hall⟩
          refine .inr ⟨x.take (x.length - v.toNat), v.toNat, by omega, by omega, ?_⟩
          rw [BitVec.ofNat_toNat, BitVec.setWidth_eq, ← hpad, List.take_append_drop]

theorem unpadSeq_prefix (x : List Byte) : (unpadSeq x).1 <+: x := by
  obtain h | ⟨y, v, hpos, hle, rfl⟩ := unpadSeq_unchanged_or_padded x
  · rw [h]
  · rw [unpadSeq_append_replicate y hpos hle]
    exact List.prefix_append _ _

/-! ## Byte ranges of the buffer -/

theorem Memory.eq_readBytes_of_prefix {m : Memory} {a n : Nat} {y : List Byte} (h : y <+: m.readBytes a n) :
    y = m.readBytes a y.length := by
  have hlen : y.length ≤ n := by simpa using h.length_le
  obtain ⟨k, rfl⟩ := Nat.exists_eq_add_of_le hlen
  rw [Memory.readBytes_add] at h
  exact (List.prefix_of_prefix_length_le h (List.prefix_append _ _) (by simp)).eq_of_length (by simp)

/-! ## When the pad fits, and what MLEN and the message are afterwards (R104 to R106) -/

/-- BUF_BYTES is a multiple of 8, so that below it there is always room for the pad. -/
theorem paddedFits_iff_lt {s : State} (hl : s.params.Legal) : s.PaddedFits ↔ s.mlen.toNat < s.params.bufBytes := by
  obtain ⟨-, -, -, hsize, -⟩ := hl
  unfold State.PaddedFits
  omega

theorem toNat_mlen_padMessage {s : State} (hl : s.params.Legal) (hp : s.PaddedFits) :
    s.padMessage.mlen.toNat = s.paddedEnd := by
  obtain ⟨-, -, -, -, -, hmax⟩ := hl
  have hend : s.paddedEnd ≤ s.params.bufBytes := hp
  rw [State.padMessage_mlen, BitVec.toNat_ofNat, Nat.mod_eq_of_lt (by omega)]

/-- After the pad the message of the new length is Pad of the old message (R105). -/
theorem readBytes_padMessage {s : State} (h : s.buf.wf) :
    s.padMessage.buf.readBytes 0 s.paddedEnd = padSeq s.message := by
  have hold : s.padMessage.buf.readBytes 0 s.mlen.toNat = s.message :=
    Memory.readBytes_congr fun k hk => by rw [read_padMessage h, if_neg (by omega)]
  have hpad : s.padMessage.buf.readBytes s.mlen.toNat (padLen s.mlen.toNat) = padBytes s.mlen.toNat := by
    refine List.eq_replicate_iff.mpr ⟨Memory.length_readBytes _ _ _, fun b hb => ?_⟩
    obtain ⟨k, hk, rfl⟩ := List.mem_map.mp hb
    rw [List.mem_range] at hk
    rw [read_padMessage h, State.paddedEnd, if_pos (by omega)]
  rw [State.paddedEnd, Memory.readBytes_add, Nat.zero_add, hold, hpad, padSeq, length_message]

/-- The strip never lengthens the message, so that MLEN holds the new length without wrapping (R106). -/
theorem toNat_mlen_unpadMessage (s : State) : s.unpadMessage.mlen.toNat = (unpadSeq s.message).1.length := by
  have hle : (unpadSeq s.message).1.length ≤ s.mlen.toNat := by simpa using length_unpadSeq_le s.message
  rw [State.unpadMessage_mlen, BitVec.toNat_ofNat, Nat.mod_eq_of_lt (Nat.lt_of_le_of_lt hle s.mlen.isLt)]

/-! ## The commands when their checks answer (R104, R106) -/

theorem exec_of_check_some {i : Instr} {s : State} {e : ErrCode} (h : commandCheck i s = some e) :
    exec i s = .next (s.completeError e) := by
  rw [exec_eq_runCommand, h, runCommand_some]

theorem exec_of_check_none {i : Instr} {s : State} (h : commandCheck i s = none)
    (hr : commandReach i s ≤ s.params.bufBytes) : exec i s = .next (commandEffect i s).complete := by
  rw [exec_eq_runCommand, h, runCommand_none hr]

theorem exec_pad_of_paddedFits {s : State} (hp : s.PaddedFits) : exec .pad s = .next s.padMessage.complete := by
  have hmsg : s.MsgFits := Nat.le_of_add_right_le hp
  have hcheck : commandCheck .pad s = none := by
    rw [commandCheck, mlenError_eq_none.mpr hmsg, overflowError_eq_none.mpr hp]
    rfl
  exact exec_of_check_none hcheck hp

theorem exec_pad_of_overflow {s : State} (hm : s.MsgFits) (hp : ¬ s.PaddedFits) :
    exec .pad s = .next (s.completeError .overflow) := by
  have hover : s.overflowError = some .overflow := if_pos (Nat.lt_of_not_le hp)
  refine exec_of_check_some ?_
  rw [commandCheck, mlenError_eq_none.mpr hm, hover]
  rfl

theorem exec_unpad_of_msgFits {s : State} (hm : s.MsgFits) : exec .unpad s = .next s.unpadMessage.complete :=
  exec_of_check_none (mlenError_eq_none.mpr hm) hm

/-! ## The obligations of spec/40_padding.md -/

/-- Settles O24: a padded sequence ends in PadLen bytes of that value, which is what the strip recognises. -/
theorem padLaws : Obligations.PadLaws := by
  intro x
  have hpos := padLen_pos x.length
  have hle := padLen_le x.length
  rw [length_padSeq, Nat.add_sub_cancel_left]
  exact ⟨add_padLen_mod _, hpos, hle, unpadSeq_append_replicate x hpos hle⟩

/-- Settles O25: what ends in a pad is recognised, and what does not comes back unchanged. -/
theorem unpadRecognisesPads : Obligations.UnpadRecognisesPads := by
  intro x
  have of_padded : ∀ y, (∃ v, 1 ≤ v ∧ v ≤ 8 ∧ x = y ++ List.replicate v (BitVec.ofNat 8 v)) →
      unpadSeq x = (y, true) := by
    rintro y ⟨v, hpos, hle, rfl⟩
    exact unpadSeq_append_replicate y hpos hle
  obtain h | ⟨z, hz⟩ := unpadSeq_unchanged_or_padded x
  · refine ⟨fun y => ⟨fun hy => ?_, of_padded y⟩, fun _ => by rw [h]⟩
    rw [h] at hy
    cases hy
  · have h := of_padded z hz
    refine ⟨fun y => ⟨fun hy => ?_, of_padded y⟩, fun hfalse => ?_⟩
    · rw [h] at hy
      cases hy
      exact hz
    · rw [h] at hfalse
      cases hfalse

/-- Settles O10: a message shorter than the buffer has room for its pad, and a pad that fits changes MLEN, which an
error does not. -/
theorem padOverflowsOnlyOnAFullBuffer : Obligations.PadOverflowsOnlyOnAFullBuffer := by
  rintro s ⟨hl, -⟩ hm
  have hfits := paddedFits_iff_lt hl
  constructor
  · intro hover
    by_contra hne
    have hp : s.PaddedFits := hfits.mpr (Nat.lt_of_le_of_ne hm hne)
    rw [exec_pad_of_paddedFits hp] at hover
    injection hover with hstate
    have hmlen : s.padMessage.mlen = s.mlen := (congrArg State.mlen hstate :)
    have hlonger : s.mlen.toNat < s.paddedEnd := Nat.lt_add_of_pos_right (padLen_pos _)
    rw [← toNat_mlen_padMessage hl hp, hmlen] at hlonger
    exact Nat.lt_irrefl _ hlonger
  · intro hfull
    exact exec_pad_of_overflow hm fun hp => absurd (hfits.mp hp) (by omega)

/-- Settles O26: the memory is the buffer with the pad written. -/
theorem padResult : Obligations.PadResult := by
  rintro s ⟨hl, -, -, ⟨hwf, -⟩, -⟩ hp
  exact ⟨s.padMessage.buf, exec_pad_of_paddedFits hp, toNat_mlen_padMessage hl hp, read_padMessage hwf,
    readBytes_padMessage hwf⟩

/-- Settles O27: what the strip leaves is the beginning of the message, and its length fits MLEN. -/
theorem unpadResult : Obligations.UnpadResult := by
  intro s hm
  exact ⟨exec_unpad_of_msgFits hm, toNat_mlen_unpadMessage s,
    Memory.eq_readBytes_of_prefix (unpadSeq_prefix s.message)⟩

end Sys2Proof.Machine
end

section
/-! SUPPORT. The round key, bit by bit, and the halves that Feistel holds after each round
(spec/41_round_function.md). -/

namespace Sys2Proof.Machine

/-! ## The round key (R120 to R122) -/

theorem keyBit_of_getElem? {key : List Word} {j : Nat} {w : Word} (h : key[j / 32]? = some w) :
    keyBit key j = w.getLsbD (31 - j % 32) := by
  rw [keyBit, List.getD_eq_getElem?_getD, h, Option.getD_some]

/-- The window only sees its start modulo L. -/
theorem roundKey_congr (key : List Word) {l r r' : Nat} (h : r % l = r' % l) :
    roundKey key l r = roundKey key l r' := by
  refine word_ext fun i hi => ?_
  rw [getLsbD_roundKey key l r hi, getLsbD_roundKey key l r' hi, Nat.add_mod, h, ← Nat.add_mod]

/-- The window moves by one bit: what was bit 30 - i becomes bit 31 - i, and bit 0 is new. -/
theorem roundKey_succ (key : List Word) (l r : Nat) :
    roundKey key l (r + 1) =
      (roundKey key l r <<< 1) ||| (BitVec.ofBool (keyBit key ((r + 32) % l))).setWidth 32 := by
  refine word_ext fun i hi => ?_
  rw [getLsbD_roundKey key l (r + 1) hi, BitVec.getLsbD_or, BitVec.getLsbD_shiftLeft, BitVec.getLsbD_setWidth]
  by_cases hlast : i = 31
  · subst hlast
    simp [Nat.add_assoc]
  · have hbit := getLsbD_roundKey key l r (i := i + 1) (by omega)
    rw [← Nat.sub_sub] at hbit
    rw [hbit, BitVec.getLsbD_of_ge (BitVec.ofBool _) _ (by omega), Nat.add_right_comm, Nat.add_assoc,
      decide_eq_true (show 31 - i < 32 by omega), decide_eq_false (show ¬ 31 - i < 1 by omega)]
    simp

/-- With a key of one bit every window is that bit, 32 times. -/
theorem roundKey_one (key : List Word) (r : Nat) :
    roundKey key 1 r = if keyBit key 0 then 0xFFFFFFFF else 0 := by
  refine word_ext fun i hi => ?_
  rw [getLsbD_roundKey key 1 r hi, Nat.mod_one]
  cases keyBit key 0 with
  | false => simp
  | true =>
    have hones : (0xFFFFFFFF : Word) = BitVec.allOnes 32 := rfl
    rw [if_pos rfl, hones, BitVec.getLsbD_allOnes, decide_eq_true (by omega)]

/-! ## The halves after each round (R125, R126) -/

/-- The halves (Lh, Rh) that Feistel(b, dir, N) holds after the first i rounds. -/
def feistelHalves (cfg : CfgReg) (rk : Nat → Word) (b : Block) (dir : Dir) (n i : Nat) : Word × Word :=
  halvesAfter cfg (roundKeys rk dir n) (leftHalf b, rightHalf b) i

section
variable (cfg : CfgReg) (rk : Nat → Word) (b : Block) (dir : Dir) {n i : Nat}

theorem feistelHalves_zero : feistelHalves cfg rk b dir n 0 = (leftHalf b, rightHalf b) := halvesAfter_zero _ _ _

theorem feistelHalves_succ (hi : i < n) :
    feistelHalves cfg rk b dir n (i + 1) =
      roundStep cfg (rk (roundIndex dir n i)) (feistelHalves cfg rk b dir n i) := by
  have hlen : i < (roundKeys rk dir n).length := by rwa [length_roundKeys]
  rw [feistelHalves, halvesAfter_succ _ _ _ hlen, getElem_roundKeys]
  rfl

theorem feistel_out_eq_emit : (feistel cfg rk b dir n).1 = emit (feistelHalves cfg rk b dir n n) := by
  have h := halvesAfter_length cfg (roundKeys rk dir n) (leftHalf b, rightHalf b)
  rw [length_roundKeys] at h
  rw [feistel_out, feistelHalves, h]

theorem getElem?_feistel_trace (hi : i < n) :
    (feistel cfg rk b dir n).2[i]? = some (emit (feistelHalves cfg rk b dir n (i + 1))) :=
  getElem?_trace _ _ _ (by rwa [length_roundKeys])

end

/-! ## Decryption after encryption (R128) -/

/-- The rounds with the keys in reverse order give the block back. -/
theorem feistel_feistel {cfg : CfgReg} (hc : cfg.Invertible) {rk : Nat → Word} {dir dir' : Dir} {n : Nat}
    (hkeys : roundKeys rk dir' n = (roundKeys rk dir n).reverse) (b : Block) :
    (feistel cfg rk (feistel cfg rk b dir n).1 dir' n).1 = b := by
  rw [feistel_out cfg rk b, feistel_out, halves_emit, hkeys, runRounds_reverse hc]
  exact join_halves b

theorem roundKeys_enc (rk : Nat → Word) (n : Nat) : roundKeys rk .enc n = (roundKeys rk .dec n).reverse := by
  rw [roundKeys_dec, List.reverse_reverse]

/-! ## XorHalf with the left operand (R129) -/

/-- The left half cancels: the new right half is the round key alone. -/
theorem roundStep_left {cfg : CfgReg} (hv : cfg.var = .xorHalf) (ho : cfg.opsel = .left) (k : Word)
    (h : Word × Word) : roundStep cfg k h = (h.2, k) := by
  have hf : roundFunction cfg k h.1 h.2 = k ^^^ h.1 := by simp only [roundFunction, hv, ho]
  rw [roundStep, hf, BitVec.xor_comm k, ← BitVec.xor_assoc, BitVec.xor_self, BitVec.zero_xor]

/-! ## Exchanging the halves of a block -/

/-- The block with its halves exchanged. -/
def swapBlock (b : Block) : Block := joinHalves (rightHalf b) (leftHalf b)

/-- The block with its halves exchanged when `i` is even: where i rounds and the final swap put its bits. -/
def swapIfEven (i : Nat) (b : Block) : Block := if i % 2 = 0 then swapBlock b else b

theorem swapBlock_swapBlock (b : Block) : swapBlock (swapBlock b) = b := by simp [swapBlock]

theorem swapBlock_emit (h : Word × Word) : swapBlock (emit h) = joinHalves h.1 h.2 := by simp [swapBlock, emit]

theorem getLsbD_swapBlock (b : Block) {j : Nat} (hj : j < 64) :
    (swapBlock b).getLsbD j = b.getLsbD ((j + 32) % 64) := by
  simp only [swapBlock, joinHalves, leftHalf, rightHalf, BitVec.getLsbD_append, BitVec.getLsbD_extractLsb']
  by_cases h : j < 32
  · rw [if_pos h, Nat.mod_eq_of_lt (by omega), Nat.add_comm j, decide_eq_true h, Bool.true_and]
  · rw [if_neg h, decide_eq_true (by omega), Bool.true_and]
    congr 1
    omega

theorem swapBlock_xor (b d : Block) : swapBlock (b ^^^ d) = swapBlock b ^^^ swapBlock d := by
  refine BitVec.eq_of_getLsbD_eq fun j hj => ?_
  simp only [BitVec.getLsbD_xor, getLsbD_swapBlock _ hj]

theorem swapBlock_twoPow {k : Nat} (hk : k < 64) :
    swapBlock (BitVec.twoPow 64 k) = BitVec.twoPow 64 ((k + 32) % 64) := by
  refine BitVec.eq_of_getLsbD_eq fun j hj => ?_
  rw [getLsbD_swapBlock _ hj, BitVec.getLsbD_twoPow, BitVec.getLsbD_twoPow, decide_eq_true hk,
    decide_eq_true (Nat.mod_lt _ (by decide)), Bool.true_and, Bool.true_and, decide_eq_decide]
  omega

theorem swapIfEven_xor (i : Nat) (b d : Block) : swapIfEven i (b ^^^ d) = swapIfEven i b ^^^ swapIfEven i d := by
  unfold swapIfEven
  split
  · exact swapBlock_xor b d
  · rfl

theorem swapIfEven_succ (i : Nat) (b : Block) : swapIfEven (i + 1) b = swapBlock (swapIfEven i b) := by
  unfold swapIfEven
  obtain h | h := Nat.mod_two_eq_zero_or_one i
  · rw [if_neg (by omega), if_pos h, swapBlock_swapBlock]
  · rw [if_pos (by omega), if_neg (by omega)]

/-- A single bit stays a single bit. -/
theorem swapIfEven_twoPow (i : Nat) {k : Nat} (hk : k < 64) :
    ∃ k' < 64, swapIfEven i (BitVec.twoPow 64 k) = BitVec.twoPow 64 k' := by
  unfold swapIfEven
  split
  · exact ⟨_, Nat.mod_lt _ (by decide), swapBlock_twoPow hk⟩
  · exact ⟨k, hk, rfl⟩

/-! ## The Identity variant (R130) -/

theorem roundStep_identity {cfg : CfgReg} (hv : cfg.var = .identity) (k : Word) (h : Word × Word) :
    roundStep cfg k h = (h.2, h.1 ^^^ k) := by
  simp only [roundStep, roundFunction, hv]

/-- A round exchanges the halves of the emitted block and XORs the round key into the upper one. -/
theorem emit_roundStep_identity {cfg : CfgReg} (hv : cfg.var = .identity) (k : Word) (h : Word × Word) :
    emit (roundStep cfg k h) = swapBlock (emit h) ^^^ joinHalves k 0#32 := by
  rw [roundStep_identity hv, swapBlock_emit, joinHalves, joinHalves, BitVec.xor_append, BitVec.xor_zero]
  rfl

/-- The block emitted after i rounds is the block XOR a constant, up to a swap of its halves. -/
theorem exists_emit_feistelHalves_eq_xor (rk : Nat → Word) (dir : Dir) {n i : Nat} (hi : i ≤ n) :
    ∃ c : Block, ∀ (cfg : CfgReg) (b : Block), cfg.var = .identity →
      emit (feistelHalves cfg rk b dir n i) = swapIfEven i b ^^^ c := by
  induction i with
  | zero =>
    refine ⟨0#64, fun cfg b _ => ?_⟩
    rw [feistelHalves_zero, BitVec.xor_zero]
    rfl
  | succ i ih =>
    obtain ⟨c, hc⟩ := ih (by omega)
    refine ⟨swapBlock c ^^^ joinHalves (rk (roundIndex dir n i)) 0#32, fun cfg b hv => ?_⟩
    rw [feistelHalves_succ _ _ _ _ (by omega), emit_roundStep_identity hv, hc cfg b hv, swapBlock_xor,
      ← swapIfEven_succ, BitVec.xor_assoc]

/-- So a difference between two blocks comes out as the same difference, up to a swap of its halves. -/
theorem emit_feistelHalves_xor {cfg : CfgReg} (hv : cfg.var = .identity) (rk : Nat → Word) (dir : Dir) {n i : Nat}
    (hi : i ≤ n) (b d : Block) :
    emit (feistelHalves cfg rk (b ^^^ d) dir n i) = emit (feistelHalves cfg rk b dir n i) ^^^ swapIfEven i d := by
  obtain ⟨c, hc⟩ := exists_emit_feistelHalves_eq_xor rk dir hi
  rw [hc cfg _ hv, hc cfg b hv, swapIfEven_xor, BitVec.xor_assoc, BitVec.xor_assoc, BitVec.xor_comm c]

/-- Key A repeats after two bits, so that round keys two rounds apart are equal. -/
theorem roundKey_keyA_add_two (r : Nat) : roundKey [0xAAAA0000] 16 (r + 2) = roundKey [0xAAAA0000] 16 r := by
  have hbit : ∀ j < 16, keyBit [0xAAAA0000] ((j + 2) % 16) = keyBit [0xAAAA0000] j := by decide
  refine word_ext fun i hi => ?_
  rw [getLsbD_roundKey _ _ _ hi, getLsbD_roundKey _ _ _ hi, ← hbit ((r + i) % 16) (Nat.mod_lt _ (by decide)),
    Nat.mod_add_mod, Nat.add_right_comm]

/-- Four rounds in which the keys two rounds apart are equal give the halves back. -/
theorem feistelHalves_add_four {cfg : CfgReg} (hv : cfg.var = .identity) {rk : Nat → Word}
    (hrk : ∀ r, rk (r + 2) = rk r) (b : Block) (dir : Dir) {n i : Nat} (hi : i + 4 ≤ n) :
    feistelHalves cfg rk b dir n (i + 4) = feistelHalves cfg rk b dir n i := by
  have hkey : ∀ j, j + 2 < n → rk (roundIndex dir n (j + 2)) = rk (roundIndex dir n j) := by
    intro j hj
    cases dir with
    | enc => exact hrk j
    | dec =>
      rw [← hrk]
      exact congrArg rk (show n - 1 - (j + 2) + 2 = n - 1 - j by omega)
  rw [feistelHalves_succ _ _ _ _ (by omega), feistelHalves_succ _ _ _ _ (by omega),
    feistelHalves_succ _ _ _ _ (by omega), feistelHalves_succ _ _ _ _ (by omega), hkey (i + 1) (by omega),
    hkey i (by omega)]
  simp [roundStep_identity hv]

theorem feistelHalves_four_mul {cfg : CfgReg} (hv : cfg.var = .identity) {rk : Nat → Word}
    (hrk : ∀ r, rk (r + 2) = rk r) (b : Block) (dir : Dir) {n m : Nat} (hm : 4 * m ≤ n) :
    feistelHalves cfg rk b dir n (4 * m) = (leftHalf b, rightHalf b) := by
  induction m with
  | zero => exact feistelHalves_zero _ _ _ _
  | succ m ih => rw [Nat.mul_add_one, feistelHalves_add_four hv hrk b dir (i := 4 * m) hm, ih (by omega)]

/-! ## The obligations of spec/41_round_function.md -/

/-- Settles O16: the key words hold every key bit below L. -/
theorem roundKeyIsTheCyclicWindow : Obligations.RoundKeyIsTheCyclicWindow := by
  intro key l r i hl hkey hi
  have hj : (r + i) % l < l := Nat.mod_lt _ hl
  have hw : key[((r + i) % l) / 32]? = some key[((r + i) % l) / 32] := List.getElem?_eq_getElem (by omega)
  exact ⟨_, hw, by rw [getLsbD_roundKey key l r hi, keyBit_of_getElem? hw]⟩

/-- Settles O17, each law from the bits of the window. -/
theorem roundKeyLaws : Obligations.RoundKeyLaws := by
  intro key l r _
  refine ⟨roundKey_congr key (Nat.mod_mod r l).symm, roundKey_succ key l r, ?_, fun _ i hi => ?_,
    fun _ hwrap i hi => ?_⟩
  · rintro rfl
    exact roundKey_one key r
  · rw [getLsbD_roundKey key l r hi, Nat.add_mod]
  · rw [getLsbD_roundKey key l r hi, Nat.mod_eq_of_lt (by omega)]

/-- Settles O18: the three branches of R123. -/
theorem roundFunctionVariants : Obligations.RoundFunctionVariants := fun _ _ _ _ _ => ⟨rfl, rfl, rfl⟩

/-- Settles O19: the sequence is `feistelHalves`. -/
theorem feistelIteration : Obligations.FeistelIteration := by
  intro cfg rk b dir n
  refine ⟨feistelHalves cfg rk b dir n, feistelHalves_zero _ _ _ _, fun i hi => ?_, feistel_out_eq_emit _ _ _ _,
    length_feistel_trace _ _ _ _ _, fun i hi => getElem?_feistel_trace _ _ _ _ hi, fun hn => ?_⟩
  · rw [feistelHalves_succ _ _ _ _ hi]
    cases dir <;> rfl
  · rw [List.getLast?_eq_getElem?, length_feistel_trace, getElem?_feistel_trace _ _ _ _ (by omega),
      Nat.sub_add_cancel hn, feistel_out_eq_emit]

/-- Settles O20: no round key is used, and the final swap remains. -/
theorem zeroRoundsSwapTheHalves : Obligations.ZeroRoundsSwapTheHalves := fun _ _ _ _ => rfl

/-- Settles O21: the two directions use the same round keys in opposite orders. -/
theorem decryptUndoesEncrypt : Obligations.DecryptUndoesEncrypt := by
  refine ⟨fun cfg key l b n hc => ?_, by decide, by decide⟩
  exact ⟨feistel_feistel hc (roundKeys_dec _ n) b, feistel_feistel hc (roundKeys_enc _ n) b⟩

/-- Settles O22: every round puts its key into the right half. -/
theorem leftOperandForgetsTheBlock : Obligations.LeftOperandForgetsTheBlock := by
  intro cfg rk b dir n hv ho index
  have hindex : ∀ i, rk (roundIndex dir n i) = rk (index i) := fun i => by cases dir <;> rfl
  have hstep : ∀ i < n, feistelHalves cfg rk b dir n (i + 1) =
      ((feistelHalves cfg rk b dir n i).2, rk (index i)) := fun i hi => by
    rw [feistelHalves_succ _ _ _ _ hi, roundStep_left hv ho, hindex]
  refine ⟨fun i hi => ?_, ?_, fun hn => ?_⟩
  · rw [getElem?_feistel_trace _ _ _ _ hi, hstep i hi]
    exact congrArg some (leftHalf_join _ _)
  · rintro rfl
    rw [feistel_out_eq_emit, hstep 0 Nat.one_pos, feistelHalves_zero, ← hindex]
    cases dir <;> rfl
  · obtain ⟨m, rfl⟩ := Nat.exists_eq_add_of_le' hn
    rw [feistel_out_eq_emit, hstep (m + 1) (by omega), hstep m (by omega)]
    rfl

/-- Settles O23: blocks that differ by d come out differing by d, up to a swap of its halves; with key A four rounds
cancel. -/
theorem identityVariantIsAConstantXor : Obligations.IdentityVariantIsAConstantXor := by
  refine ⟨fun rk dir n => ?_, fun cfg rk dir n hv k hk b => ⟨?_, fun i hi => ?_⟩, fun cfg b dir n hv hn => ?_⟩
  · obtain ⟨c, hc⟩ := exists_emit_feistelHalves_eq_xor rk dir (Nat.le_refl n)
    refine ⟨c, fun cfg b hv => ?_⟩
    rw [feistel_out_eq_emit]
    exact hc cfg b hv
  · obtain ⟨k', hk', hflip⟩ := swapIfEven_twoPow n hk
    refine ⟨k', hk', ?_⟩
    rw [feistel_out_eq_emit, feistel_out_eq_emit, emit_feistelHalves_xor hv rk dir (Nat.le_refl n), hflip]
  · obtain ⟨k', hk', hflip⟩ := swapIfEven_twoPow (i + 1) hk
    refine ⟨k', hk', _, getElem?_feistel_trace _ _ _ _ hi, ?_⟩
    rw [getElem?_feistel_trace _ _ _ _ hi, emit_feistelHalves_xor hv rk dir hi, hflip]
  · obtain ⟨m, rfl⟩ := Nat.dvd_of_mod_eq_zero hn
    rw [feistel_out_eq_emit, feistelHalves_four_mul hv roundKey_keyA_add_two b dir (Nat.le_refl _)]
    rfl

end Sys2Proof.Machine
end

section
/-! SUPPORT. The block commands (spec/42_block_commands.md): what ENCB and DECB do under a legal key, what WriteTrace
leaves in TRACE, and that TRACE and TRCNT are outputs only. -/

namespace Sys2Proof.Machine

/-! ## ENCB and DECB as one command with a direction (R140, R141) -/

/-- The block command of a direction: ENCB encrypts and DECB decrypts. -/
def blockInstr : Dir → Bool → Instr
  | .enc => .encb
  | .dec => .decb

theorem exec_blockInstr (dir : Dir) (t : Bool) (s : State) :
    exec (blockInstr dir t) s = runCommand s.keyError 0 (State.blockCommand dir t) s := by
  cases dir <;> rfl

theorem exec_blockInstr_of_keyLegal {s : State} (h : s.KeyLegal) (dir : Dir) (t : Bool) :
    exec (blockInstr dir t) s = .next (s.blockCommand dir t).complete := by
  rw [exec_blockInstr, keyError_eq_none.mpr h, runCommand_none (Nat.zero_le _)]

/-- R140, R141, R144 in one equation: the halves of the output in BLK, and with T the trace. -/
theorem blockCommand_eq (s : State) (dir : Dir) (t : Bool) :
    s.blockCommand dir t = { s with
      blk0 := leftHalf (s.feistelOf s.blk dir).1
      blk1 := rightHalf (s.feistelOf s.blk dir).1
      trace := if t then (s.feistelOf s.blk dir).2 ++ s.trace.drop s.cfg.rounds.toNat else s.trace
      trcnt := if t then s.cfg.rounds else s.trcnt } := by
  cases t with
  | false => rfl
  | true => simp [State.blockCommand, State.writeTrace]

/-! ## The trace that a traced command leaves (R144) -/

theorem blockCommand_trcnt_of_traced (s : State) (dir : Dir) : (s.blockCommand dir true).trcnt = s.cfg.rounds := by
  simp

/-- The new entries come first, and from entry ROUNDS on the old ones stay in place. -/
theorem getElem?_blockCommand_trace (s : State) (dir : Dir) (j : Nat) :
    (s.blockCommand dir true).trace[j]? =
      if j < s.cfg.rounds.toNat then (s.feistelOf s.blk dir).2[j]? else s.trace[j]? := by
  rw [State.blockCommand_trace, if_pos rfl, List.getElem?_append, length_feistelOf_trace, List.getElem?_drop]
  split
  · rfl
  · next hj => rw [Nat.add_sub_of_le (Nat.le_of_not_lt hj)]

/-- A command that is not traced, or that raises ERR, leaves TRACE and TRCNT alone. -/
theorem exec_trace_frame {i : Instr} {s t : State} (h : exec i s = .next t)
    (hi : i.traced = false ∨ t.status.err = true ∧ s.status.err = false) :
    t.trace = s.trace ∧ t.trcnt = s.trcnt := by
  obtain ⟨e, -, rfl⟩ | ⟨-, -, rfl⟩ := exec_next h
  · exact ⟨rfl, rfl⟩
  · obtain hi | ⟨herr, hold⟩ := hi
    · by_contra hne
      obtain rfl | rfl := traced_of_commandEffect_trace (i := i) (not_and_or.mp hne) <;> cases hi
    · simp [commandEffect_err, hold] at herr

/-! ## TRACE and TRCNT as outputs (R145) -/

/-- The state with TRACE and TRCNT replaced. -/
def State.withTrace (s : State) (tr : List Block) (n : BitVec 8) : State := { s with trace := tr, trcnt := n }

section
variable (i : Instr) (s : State) (tr : List Block) (n : BitVec 8) (tr' : List Block) (n' : BitVec 8)

theorem commandCheck_withTrace : commandCheck i (s.withTrace tr n) = commandCheck i s := by cases i <;> rfl

theorem commandReach_withTrace : commandReach i (s.withTrace tr n) = commandReach i s := by cases i <;> rfl

/-- Whatever TRACE and TRCNT were, the effect of a command differs in TRACE and TRCNT at most. -/
theorem commandEffect_withTrace :
    (commandEffect i (s.withTrace tr n)).withTrace tr' n' = (commandEffect i s).withTrace tr' n' := by
  cases i with
  | encb t | decb t => cases t <;> rfl
  | _ => rfl

end

/-- A command answers alike whatever TRACE and TRCNT were, up to these two. -/
theorem exec_withTrace {i : Instr} {s t : State} (h : exec i s = .next t) (tr : List Block) (n : BitVec 8) :
    ∃ u, exec i (s.withTrace tr n) = .next u ∧ u.withTrace t.trace t.trcnt = t := by
  have hcheck := commandCheck_withTrace i s tr n
  obtain ⟨e, hc, rfl⟩ | ⟨hc, hr, rfl⟩ := exec_next h
  · exact ⟨_, exec_of_check_some (hcheck.trans hc), rfl⟩
  · have hreach : commandReach i (s.withTrace tr n) ≤ s.params.bufBytes := by rwa [commandReach_withTrace]
    have heffect := commandEffect_withTrace i s tr n (commandEffect i s).trace (commandEffect i s).trcnt
    exact ⟨_, exec_of_check_none (hcheck.trans hc) hreach, congrArg State.complete heffect⟩

/-- A traced and an untraced block command agree on BLK and STATUS, with or without error. -/
theorem outputs_eq_of_traced_of_untraced {dir : Dir} {s t u : State} (ht : exec (blockInstr dir true) s = .next t)
    (hu : exec (blockInstr dir false) s = .next u) : t.blk0 = u.blk0 ∧ t.blk1 = u.blk1 ∧ t.status = u.status := by
  rw [exec_blockInstr] at ht hu
  cases hk : s.keyError with
  | some e =>
    rw [hk, runCommand_some] at ht hu
    cases ht
    cases hu
    exact ⟨rfl, rfl, rfl⟩
  | none =>
    rw [hk, runCommand_none (Nat.zero_le _)] at ht hu
    cases ht
    cases hu
    simp

/-! ## The obligations of spec/42_block_commands.md -/

/-- Settles O12: the effect of the block command in direction Enc, and the completion. -/
theorem encbResult : Obligations.EncbResult := by
  intro t s h
  exact (exec_blockInstr_of_keyLegal h .enc t).trans (by rw [blockCommand_eq]; rfl)

/-- Settles O13: the effect of the block command in direction Dec, and the completion. -/
theorem decbResult : Obligations.DecbResult := by
  intro t s h
  exact (exec_blockInstr_of_keyLegal h .dec t).trans (by rw [blockCommand_eq]; rfl)

/-- Settles O14: the trace of the iteration has ROUNDS entries and goes in front of the old ones. -/
theorem traceEntriesAfterACommand : Obligations.TraceEntriesAfterACommand := by
  refine ⟨fun dir s hs hk => ?_, fun i s t h hi => exec_trace_frame h hi⟩
  obtain ⟨-, -, hlength, -⟩ := inv_blockCommand hs dir true
  have hexec := exec_blockInstr_of_keyLegal hk dir true
  exact ⟨(s.blockCommand dir true).complete, by cases dir <;> exact hexec, blockCommand_trcnt_of_traced s dir, hlength,
    length_feistelOf_trace s s.blk dir, fun j _ => getElem?_blockCommand_trace s dir j⟩

/-- Settles O15: neither the checks of a command nor its effect elsewhere read TRACE or TRCNT. -/
theorem traceIsAnOutputOnly : Obligations.TraceIsAnOutputOnly := by
  refine ⟨fun i s t tr n h => exec_withTrace h tr n, fun s t u h => ?_⟩
  obtain ⟨ht, hu⟩ | ⟨ht, hu⟩ := h
  · exact outputs_eq_of_traced_of_untraced (dir := .enc) ht hu
  · exact outputs_eq_of_traced_of_untraced (dir := .dec) ht hu

end Sys2Proof.Machine
end

section
/-! SUPPORT. The multi-block commands (spec/43_multiblock.md): what the ECB driver leaves in the message, how it acts on
byte sequences, and which part of the state a multi-block command reads. -/

namespace Sys2Proof.Machine

/-! ## The commands when their checks pass (R161 to R163, R166) -/

/-- With legal parameters, a legal key, a message that fits and, where the command appends a pad, room for it, no check
fails. -/
theorem exec_of_fits {s : State} (hl : s.params.Legal) (hk : s.KeyLegal) (hm : s.MsgFits) {i : Instr}
    (hp : i.appendsPad = true → s.PaddedFits) : exec i s = .next (commandEffect i s).complete := by
  have hcheck : commandCheck i s = none := by
    rw [commandCheck_eq_columns, keyError_eq_none.mpr hk, mlenError_eq_none.mpr hm, ite_self, ite_self]
    cases happ : i.appendsPad with
    | false => rfl
    | true => exact overflowError_eq_none.mpr (hp happ)
  exact exec_of_check_none hcheck (commandReach_le hl hcheck)

theorem msgFits_of_paddedFits {s : State} (hp : s.PaddedFits) : s.MsgFits := Nat.le_of_add_right_le hp

theorem exec_enc_of_paddedFits {s : State} (hl : s.params.Legal) (hk : s.KeyLegal) (hp : s.PaddedFits) :
    exec .enc s = .next (s.padMessage.ecb .enc).complete :=
  exec_of_fits hl hk (msgFits_of_paddedFits hp) fun _ => hp

theorem exec_dec_of_msgFits {s : State} (hl : s.params.Legal) (hk : s.KeyLegal) (hm : s.MsgFits) :
    exec .dec s = .next (s.ecb .dec).unpadMessage.complete :=
  exec_of_fits hl hk hm nofun

/-- The multi-block command of a direction without pad or strip: ENCM encrypts and DECM decrypts. -/
def ecbInstr : Dir → Instr
  | .enc => .encm
  | .dec => .decm

theorem exec_ecbInstr_of_msgFits {s : State} (hl : s.params.Legal) (hk : s.KeyLegal) (hm : s.MsgFits) (dir : Dir) :
    exec (ecbInstr dir) s = .next (s.ecb dir).complete := by
  cases dir <;> exact exec_of_fits hl hk hm nofun

/-! ## Ecb on the message (R160) -/

/-- BUF_BYTES is a multiple of 8 of at most 8192, so that MLEN holds the rounded length without wrapping. -/
theorem toNat_mlen_ecb {s : State} (hl : s.params.Legal) (hm : s.MsgFits) (dir : Dir) :
    (s.ecb dir).mlen.toNat = ceil8 s.mlen.toNat := by
  obtain ⟨-, -, -, hsize, -, hmax⟩ := hl
  have hle : ceil8 s.mlen.toNat ≤ s.params.bufBytes := ceil8_le hm hsize
  rw [State.ecb_mlen, BitVec.toNat_ofNat, Nat.mod_eq_of_lt (by omega)]

/-- Whole blocks stay as many as they were. -/
theorem mlen_ecb_of_mod {s : State} (h8 : s.mlen.toNat % 8 = 0) (dir : Dir) : (s.ecb dir).mlen = s.mlen := by
  rw [State.ecb_mlen, ceil8_of_mod h8, BitVec.ofNat_toNat, BitVec.setWidth_eq]

/-- Byte `a` of the message after Ecb belongs to the image of block a / 8. -/
theorem read_ecb_of_lt {s : State} (h : s.buf.wf) (dir : Dir) {a : Nat} (ha : a < ceil8 s.mlen.toNat) :
    (s.ecb dir).buf.read a =
      blockByte (s.feistelOf (blockOf fun k => s.filledByte (8 * (a / 8) + k)) dir).1 (a % 8) := by
  have hmod := ceil8_mod s.mlen.toNat
  rw [← memRead_ecb h dir (show a / 8 < ceil8 s.mlen.toNat / 8 by omega), ← read_of_memRead (by omega),
    Nat.div_add_mod]

/-- A message of whole blocks needs no zero fill: block b is replaced by its image. -/
theorem memRead_ecb_of_mod {s : State} (h : s.buf.wf) (h8 : s.mlen.toNat % 8 = 0) (dir : Dir) {b : Nat}
    (hb : b < s.mlen.toNat / 8) :
    (s.ecb dir).buf.memRead (8 * b) 8 = (s.feistelOf (s.buf.memRead (8 * b) 8) dir).1 := by
  rw [memRead_ecb h dir (by rwa [ceil8_of_mod h8]), memRead_eight]
  congr 2
  exact blockOf_congr fun k hk => if_pos (by omega)

/-! ## Ecb as a function of byte sequences (R164, R168) -/

theorem readBytes_eight (m : Memory) (a : Nat) : m.readBytes a 8 = (List.range 8).map (blockByte (m.memRead a 8)) :=
  List.map_congr_left fun _ hk => read_of_memRead (List.mem_range.mp hk)

/-- A memory whose n blocks from `a` up are the images of another memory's blocks holds `mapBlocks` of its bytes. -/
theorem readBytes_eq_mapBlocks {f : Block → Block} {m m' : Memory} {a n : Nat}
    (h : ∀ b < n, m'.memRead (a + 8 * b) 8 = f (m.memRead (a + 8 * b) 8)) :
    m'.readBytes a (8 * n) = mapBlocks f n (m.readBytes a (8 * n)) := by
  induction n generalizing a with
  | zero => rfl
  | succ n ih =>
    have hfirst : (blockOf fun k => (m.readBytes a (8 + 8 * n)).getD k 0) = m.memRead a 8 := by
      rw [memRead_eight]
      exact blockOf_congr fun k hk => Memory.getD_readBytes (by omega) 0
    have hdrop : (m.readBytes a (8 + 8 * n)).drop 8 = m.readBytes (a + 8) (8 * n) := by
      rw [Memory.readBytes_add, List.drop_left' (Memory.length_readBytes _ _ _)]
    have hhead : m'.memRead a 8 = f (m.memRead a 8) := h 0 (Nat.zero_lt_succ n)
    have htail : ∀ b < n, m'.memRead (a + 8 + 8 * b) 8 = f (m.memRead (a + 8 + 8 * b) 8) := fun b hb => by
      have hnext := h (b + 1) (Nat.succ_lt_succ hb)
      rwa [show a + 8 * (b + 1) = a + 8 + 8 * b by omega] at hnext
    rw [Nat.mul_succ, Nat.add_comm, mapBlocks, hfirst, hdrop, ← ih htail, ← hhead, ← readBytes_eight,
      Memory.readBytes_add]

/-- On a message of whole blocks Ecb is the block function, block by block. -/
theorem message_ecb {s : State} (h : s.buf.wf) (h8 : s.mlen.toNat % 8 = 0) (dir : Dir) :
    (s.ecb dir).message = mapBlocks (fun b => (s.feistelOf b dir).1) (s.message.length / 8) s.message := by
  have hwhole : s.mlen.toNat = 8 * (s.mlen.toNat / 8) := (Nat.mul_div_cancel' (Nat.dvd_of_mod_eq_zero h8)).symm
  rw [length_message, State.message, State.message, mlen_ecb_of_mod h8, hwhole,
    Nat.mul_div_cancel_left _ (by decide)]
  refine readBytes_eq_mapBlocks fun b hb => ?_
  rw [Nat.zero_add]
  exact memRead_ecb_of_mod h h8 dir hb

/-! ## The padded message and the stripped message (R163, R166) -/

theorem wf_padMessage {s : State} (h : s.buf.wf) : s.padMessage.buf.wf := Memory.wf_writeBytes h _ _

theorem unpadSeq_padSeq (x : List Byte) : unpadSeq (padSeq x) = (x, true) :=
  unpadSeq_append_replicate x (padLen_pos _) (padLen_le _)

/-- The message after the pad is Pad of the message. -/
theorem message_padMessage {s : State} (hl : s.params.Legal) (h : s.buf.wf) (hp : s.PaddedFits) :
    s.padMessage.message = padSeq s.message := by
  rw [State.message, toNat_mlen_padMessage hl hp, readBytes_padMessage h]

theorem toNat_mlen_padMessage_mod {s : State} (hl : s.params.Legal) (hp : s.PaddedFits) :
    s.padMessage.mlen.toNat % 8 = 0 := by
  rw [toNat_mlen_padMessage hl hp]
  exact add_padLen_mod _

/-- The padded message fits after the pad as it did before. -/
theorem msgFits_padMessage {s : State} (hl : s.params.Legal) (hp : s.PaddedFits) : s.padMessage.MsgFits := by
  have hend : s.paddedEnd ≤ s.params.bufBytes := hp
  rwa [State.MsgFits, toNat_mlen_padMessage hl hp]

/-- Byte `a` of the message after the pad, which is whole blocks and so has no zero fill. -/
theorem filledByte_padMessage {s : State} (hl : s.params.Legal) (h : s.buf.wf) (hp : s.PaddedFits) {a : Nat}
    (ha : a < s.paddedEnd) : s.padMessage.filledByte a = s.paddedByte a := by
  rw [State.filledByte, toNat_mlen_padMessage hl hp, if_pos ha, read_padMessage h, State.paddedByte]
  by_cases hin : a < s.mlen.toNat
  · rw [if_neg (by omega), if_pos hin]
  · rw [if_pos (by omega), if_neg hin]
    rfl

/-- The message after the strip is what Unpad leaves of the message. -/
theorem message_unpadMessage (s : State) : s.unpadMessage.message = (unpadSeq s.message).1 := by
  rw [State.message, toNat_mlen_unpadMessage]
  exact (Memory.eq_readBytes_of_prefix (unpadSeq_prefix _)).symm

/-! ## DEC after ENC (R167) -/

/-- Feistel under the machine's key and configuration reads CFG, KEYLEN and KEY only. -/
theorem feistelOf_congr {s u : State} (hcfg : u.cfg = s.cfg) (hkeylen : u.keylen = s.keylen) (hkey : u.key = s.key) :
    u.feistelOf = s.feistelOf := by
  have hkeys : u.roundKeyOf = s.roundKeyOf := funext fun r => by rw [State.roundKeyOf, hkeylen, hkey, State.roundKeyOf]
  funext b dir
  rw [State.feistelOf, hcfg, hkeys, State.feistelOf]

theorem feistelOf_dec_enc {s : State} (hc : s.cfg.Invertible) (b : Block) :
    (s.feistelOf (s.feistelOf b .enc).1 .dec).1 = b :=
  feistel_feistel hc (roundKeys_dec _ _) b

section
variable {s u : State} (h : s.buf.wf) (h8 : s.mlen.toNat % 8 = 0) (hc : s.cfg.Invertible) (hcfg : u.cfg = s.cfg)
  (hkeylen : u.keylen = s.keylen) (hkey : u.key = s.key) (hmlen : u.mlen = s.mlen) (hbuf : u.buf = (s.ecb .enc).buf)
include h h8 hc hcfg hkeylen hkey hmlen hbuf

/-- Ecb backwards over what Ecb forwards left gives every byte of a message of whole blocks back, whatever else the
state holds between. -/
theorem read_ecb_dec_of_ecb_enc {a : Nat} (ha : a < s.mlen.toNat) : (u.ecb .dec).buf.read a = s.buf.read a := by
  have hb : a / 8 < s.mlen.toNat / 8 := by omega
  have hwf : u.buf.wf := by rw [hbuf]; exact wf_ecb h .enc
  have hblock : (u.ecb .dec).buf.memRead (8 * (a / 8)) 8 = s.buf.memRead (8 * (a / 8)) 8 := by
    rw [memRead_ecb_of_mod hwf (by rwa [hmlen]) .dec (by rwa [hmlen]), hbuf, memRead_ecb_of_mod h h8 .enc hb,
      feistelOf_congr hcfg hkeylen hkey, feistelOf_dec_enc hc]
  rw [← Nat.div_add_mod a 8, read_of_memRead (by omega), hblock, ← read_of_memRead (by omega)]

theorem message_ecb_dec_of_ecb_enc : (u.ecb .dec).message = s.message := by
  rw [State.message, mlen_ecb_of_mod (by rwa [hmlen]), hmlen, State.message]
  refine Memory.readBytes_congr fun k hk => ?_
  rw [Nat.zero_add]
  exact read_ecb_dec_of_ecb_enc h h8 hc hcfg hkeylen hkey hmlen hbuf hk

end

/-! ## What a multi-block command reads (R165) -/

/-- The two states agree on all that a multi-block command reads, and on STATUS; their buffers are in canonical form. -/
structure State.SameOperands (s u : State) : Prop where
  params : s.params = u.params
  cfg : s.cfg = u.cfg
  keylen : s.keylen = u.keylen
  key : s.key = u.key
  mlen : s.mlen = u.mlen
  status : s.status = u.status
  bytes : ∀ a < s.mlen.toNat, s.buf.read a = u.buf.read a
  wf_left : s.buf.wf
  wf_right : u.buf.wf

namespace State.SameOperands
variable {s u : State}

theorem message (h : s.SameOperands u) : s.message = u.message := by
  rw [State.message, State.message, ← h.mlen]
  exact Memory.readBytes_congr fun k hk => by simpa using h.bytes k hk

theorem filledByte (h : s.SameOperands u) (a : Nat) : s.filledByte a = u.filledByte a := by
  rw [State.filledByte, State.filledByte, ← h.mlen]
  split
  · next ha => exact h.bytes a ha
  · rfl

theorem feistelOf (h : s.SameOperands u) : s.feistelOf = u.feistelOf := feistelOf_congr h.cfg h.keylen h.key

theorem paddedEnd (h : s.SameOperands u) : s.paddedEnd = u.paddedEnd := by
  rw [State.paddedEnd, h.mlen, State.paddedEnd]

theorem commandCheck (h : s.SameOperands u) (i : Instr) : commandCheck i s = commandCheck i u := by
  simp only [commandCheck_eq_columns, State.keyError, State.mlenError, State.overflowError, h.params, h.keylen, h.mlen]

/-- The pad depends on MLEN only. -/
theorem padMessage (h : s.SameOperands u) : s.padMessage.SameOperands u.padMessage where
  params := h.params
  cfg := h.cfg
  keylen := h.keylen
  key := h.key
  mlen := congrArg (BitVec.ofNat 16) h.paddedEnd
  status := h.status
  bytes a ha := by
    have hend : a < s.paddedEnd := Nat.lt_of_lt_of_le ha (by simp [Nat.mod_le])
    rw [read_padMessage h.wf_left, read_padMessage h.wf_right, ← h.paddedEnd, ← h.mlen]
    split
    · rfl
    · exact h.bytes a (by omega)
  wf_left := wf_padMessage h.wf_left
  wf_right := wf_padMessage h.wf_right

/-- Ecb makes every byte from the zero-filled message, the key and CFG. -/
theorem ecb (h : s.SameOperands u) (dir : Dir) : (s.ecb dir).SameOperands (u.ecb dir) where
  params := h.params
  cfg := h.cfg
  keylen := h.keylen
  key := h.key
  mlen := by simp only [State.ecb_mlen, h.mlen]
  status := h.status
  bytes a ha := by
    have hend : a < ceil8 s.mlen.toNat := Nat.lt_of_lt_of_le ha (by simp [Nat.mod_le])
    rw [read_ecb_of_lt h.wf_left dir hend, read_ecb_of_lt h.wf_right dir (by rwa [← h.mlen]), h.feistelOf,
      blockOf_congr fun k _ => h.filledByte _]
  wf_left := wf_ecb h.wf_left dir
  wf_right := wf_ecb h.wf_right dir

/-- The strip depends on the message only, and the message it leaves is a part of it. -/
theorem unpadMessage (h : s.SameOperands u) : s.unpadMessage.SameOperands u.unpadMessage where
  params := h.params
  cfg := h.cfg
  keylen := h.keylen
  key := h.key
  mlen := by simp only [State.unpadMessage_mlen, h.message]
  status := by simp only [State.unpadMessage_status, h.message, h.status]
  bytes a ha := by
    have hle := length_unpadSeq_le s.message
    rw [toNat_mlen_unpadMessage] at ha
    rw [length_message] at hle
    exact h.bytes a (by omega)
  wf_left := h.wf_left
  wf_right := h.wf_right

/-- The effect of a multi-block command is made of the pad, Ecb and the strip. -/
theorem commandEffect (h : s.SameOperands u) {i : Instr} (hi : i ∈ [Instr.encm, .decm, .enc, .dec]) :
    (commandEffect i s).SameOperands (commandEffect i u) := by
  simp only [List.mem_cons, List.not_mem_nil, or_false] at hi
  obtain rfl | rfl | rfl | rfl := hi
  · exact h.ecb .enc
  · exact h.ecb .dec
  · exact h.padMessage.ecb .enc
  · exact (h.ecb .dec).unpadMessage

theorem complete (h : s.SameOperands u) : s.complete.SameOperands u.complete :=
  { h with status := congrArg Status.completed h.status }

theorem completeError (h : s.SameOperands u) (e : ErrCode) : (s.completeError e).SameOperands (u.completeError e) :=
  { h with status := congrArg (Status.failed · e) h.status }

/-- A multi-block command answers alike, with or without error. -/
theorem exists_exec (h : s.SameOperands u) (hl : u.params.Legal) {i : Instr}
    (hi : i ∈ [Instr.encm, .decm, .enc, .dec]) {t : State} (ht : exec i s = .next t) :
    ∃ v, exec i u = .next v ∧ t.SameOperands v := by
  obtain ⟨e, hc, rfl⟩ | ⟨hc, -, rfl⟩ := exec_next ht
  · exact ⟨_, exec_of_check_some ((h.commandCheck i).symm.trans hc), h.completeError e⟩
  · have hcheck := (h.commandCheck i).symm.trans hc
    exact ⟨_, exec_of_check_none hcheck (commandReach_le hl hcheck), (h.commandEffect hi).complete⟩

end State.SameOperands

/-! ## The obligations of spec/43_multiblock.md -/

/-- Settles O28: ENCM and DECM are Ecb in their directions, and the completion. -/
theorem encmDecmResult : Obligations.EncmDecmResult := by
  rintro s ⟨hl, -, -, ⟨hwf, -⟩, -⟩ hk hm p hp m8
  obtain ⟨dir, -, rfl⟩ := (List.mem_map (l := [Dir.enc, .dec]) (f := fun dir => (ecbInstr dir, dir))).mp hp
  exact ⟨(s.ecb dir).buf, exec_ecbInstr_of_msgFits hl hk hm dir, toNat_mlen_ecb hl hm dir,
    fun b hb => memRead_ecb hwf dir hb, fun a ha => read_ecb_of_ge hwf dir ha⟩

/-- Settles O29: ENC is Ecb of the padded message, whose length is a multiple of 8. -/
theorem encResult : Obligations.EncResult := by
  rintro s ⟨hl, -, -, ⟨hwf, -⟩, -⟩ hk hp m8
  have hend : ceil8 s.padMessage.mlen.toNat = m8 := ceil8_mlen_padMessage hl hp
  have hm8 : s.paddedEnd = m8 := rfl
  have hmod : s.paddedEnd % 8 = 0 := add_padLen_mod _
  have hpwf := wf_padMessage hwf
  refine ⟨(s.padMessage.ecb .enc).buf, ?_, toNat_mlen_padMessage hl hp, fun b hb => ?_, fun a ha => ?_⟩
  · rw [exec_enc_of_paddedFits hl hk hp, ← hend]
    rfl
  · rw [memRead_ecb hpwf .enc (by rwa [hend]), blockOf_congr fun k hk => filledByte_padMessage hl hwf hp (by omega)]
    rfl
  · rw [read_ecb_of_ge hpwf .enc (by rwa [hend]), read_padMessage hwf, if_neg (by omega)]

/-- Settles O30: DEC is Ecb backwards and one strip of the message that it leaves. -/
theorem decResult : Obligations.DecResult := by
  rintro s ⟨hl, -, -, ⟨hwf, -⟩, -⟩ hk hm m8
  have hmessage : (s.ecb .dec).message = (s.ecb .dec).buf.readBytes 0 m8 := by
    rw [State.message, toNat_mlen_ecb hl hm]
    rfl
  refine ⟨(s.ecb .dec).buf, ?_⟩
  rw [← hmessage]
  exact ⟨exec_dec_of_msgFits hl hk hm, toNat_mlen_unpadMessage _, fun b hb => memRead_ecb hwf .dec hb,
    fun a ha => read_ecb_of_ge hwf .dec ha⟩

/-- Settles O31: on whole blocks Ecb is the block function block by block; the pad comes before and the strip after. -/
theorem encAndDecRefineTheSource : Obligations.EncAndDecRefineTheSource := by
  refine ⟨?_, ?_⟩
  · rintro s ⟨hl, -, -, ⟨hwf, -⟩, -⟩ hk hp
    have hecb := message_ecb (wf_padMessage hwf) (toNat_mlen_padMessage_mod hl hp) .enc
    rw [message_padMessage hl hwf hp] at hecb
    exact ⟨_, exec_enc_of_paddedFits hl hk hp, rfl, hecb⟩
  · rintro s ⟨hl, -, -, ⟨hwf, -⟩, -⟩ hk hm h8
    have hresult : ((s.ecb .dec).unpadMessage.message, (s.ecb .dec).unpadMessage.status.padv) =
        unpadSeq (s.ecb .dec).message := Prod.ext (message_unpadMessage _) rfl
    rw [message_ecb hwf h8] at hresult
    exact ⟨_, exec_dec_of_msgFits hl hk hm, rfl, hresult⟩

/-- Settles O32: Ecb backwards gives the padded message back, and the strip takes the pad off. -/
theorem decAfterEncRestoresTheMessage : Obligations.DecAfterEncRestoresTheMessage := by
  rintro s ⟨hl, -, -, ⟨hwf, -⟩, -⟩ hk hc hroom
  have hp : s.PaddedFits := (paddedFits_iff_lt hl).mpr hroom
  refine ⟨_, exec_enc_of_paddedFits hl hk hp, rfl, fun u hparams hcfg hkeylen hkey hmlen hbuf => ?_⟩
  have hpwf := wf_padMessage hwf
  have h8 := toNat_mlen_padMessage_mod hl hp
  have hlen : u.mlen = s.padMessage.mlen := hmlen.trans (mlen_ecb_of_mod h8 .enc)
  have hul : u.params.Legal := by rw [hparams]; exact hl
  have huk : u.KeyLegal := by rw [State.KeyLegal, hkeylen, hparams]; exact hk
  have hum : u.MsgFits := by rw [State.MsgFits, hlen, hparams]; exact msgFits_padMessage hl hp
  have hstrip : unpadSeq (u.ecb .dec).message = (s.message, true) := by
    rw [message_ecb_dec_of_ecb_enc hpwf h8 hc hcfg hkeylen hkey hlen hbuf, message_padMessage hl hwf hp,
      unpadSeq_padSeq]
  refine ⟨_, exec_dec_of_msgFits hul huk hum, rfl, by simp [hstrip], by simp [hstrip], fun a ha => ?_⟩
  have hlonger : a < s.padMessage.mlen.toNat := by
    rw [toNat_mlen_padMessage hl hp, State.paddedEnd]
    omega
  rw [State.complete_buf, State.unpadMessage_buf,
    read_ecb_dec_of_ecb_enc hpwf h8 hc hcfg hkeylen hkey hlen hbuf hlonger, read_padMessage hwf, if_neg (by omega)]

/-- Settles O33: the pad, Ecb and the strip keep the agreement of two states, and Ecb maps block by block. -/
theorem multiblockResultsDependOnlyOnTheirInputs : Obligations.MultiblockResultsDependOnlyOnTheirInputs := by
  refine ⟨?_, ?_⟩
  · rintro s u ⟨-, -, -, ⟨hs, -⟩, -⟩ ⟨hl, -, -, ⟨hu, -⟩, -⟩ hparams hcfg hkeylen hkey hmlen hstatus hbytes i hi t ht
    obtain ⟨v, hv, h⟩ := State.SameOperands.exists_exec
      ⟨hparams, hcfg, hkeylen, hkey, hmlen, hstatus, hbytes, hs, hu⟩ hl hi ht
    exact ⟨v, hv, h.mlen.symm, h.status.symm, fun a ha => (h.bytes a ha).symm⟩
  · rintro s t ⟨hl, -, -, ⟨hwf, -⟩, -⟩ hk hm i hi ht b c hb hc hblocks
    obtain ⟨dir, -, rfl⟩ := (List.mem_map (l := [Dir.enc, .dec]) (f := ecbInstr)).mp hi
    rw [exec_ecbInstr_of_msgFits hl hk hm] at ht
    cases ht
    have hlast := le_ceil8 s.mlen.toNat
    have hmod := ceil8_mod s.mlen.toNat
    rw [State.complete_buf, memRead_ecb hwf dir (by omega), memRead_ecb hwf dir (by omega), blockOf_congr hblocks]

end Sys2Proof.Machine
end

section
/-! SUPPORT. Control (spec/44_control.md): what a Read and a Write at each word of the aperture do while the engine is
idle, that only the host and reset configure the engine, and NOP. -/

namespace Sys2Proof.Machine

/-! ## What a Read answers while idle (R181) -/

section
variable {s : State}

theorem getElem?_key_readTarget {k : Nat} (h : k < s.key.length) : s.key[k]? = some (s.readTarget (.key k)) := by
  simp [State.readTarget, h]

theorem getElem?_trace_readTarget_hi {j : Nat} (h : j < s.trace.length) :
    (s.trace[j]?).map leftHalf = some (s.readTarget (.traceHi j)) := by
  simp [State.readTarget, h]

theorem getElem?_trace_readTarget_lo {j : Nat} (h : j < s.trace.length) :
    (s.trace[j]?).map rightHalf = some (s.readTarget (.traceLo j)) := by
  simp [State.readTarget, h]

/-- A word of BUF is its four bytes, the one at the lowest address the most significant (R12). -/
theorem readTarget_buf (a : Nat) :
    s.readTarget (.buf a) = s.buf.read a ++ s.buf.read (a + 1) ++ s.buf.read (a + 2) ++ s.buf.read (a + 3) := by
  show 0#0 ++ s.buf.read a ++ s.buf.read (a + 1) ++ s.buf.read (a + 2) ++ s.buf.read (a + 3) = _
  rw [BitVec.zero_width_append]
  rfl

end

/-- Settles O46: the map says what the word at the offset is, and an idle Read answers with that register. -/
theorem readWhileIdle : Obligations.ReadWhileIdle := by
  intro s off rest hs hq hb ho w
  obtain ⟨hl, hkey, htrace, -⟩ := hs
  have h4 : w % 4 = 0 := wordOffset_mod off
  refine ⟨_, step_of_read_idle hq hb ho, ?_⟩
  rw [show wordOffset off = w from rfl]
  clear_value w
  refine ⟨?id, ?caps, ?cfg, ?cmd, ?status, ?irqen, ?keylen, ?mlen, ?trcnt, ?blk0, ?blk1, fun k hk h => ?key,
    fun j hj h => ?traceHi, fun j hj h => ?traceLo, fun a ha h => ?buf, fun h => ?reserved⟩
  case id | cmd | blk0 | blk1 => rintro rfl; rfl
  case caps => rintro rfl; exact toNat_capsWord hl
  case cfg => rintro rfl; exact CfgReg.toNat_toWord s.cfg
  case status =>
    rintro rfl
    show s.status.toWord.toNat = _
    rw [Status.toNat_toWord, hb, Bool.toNat_false, Nat.zero_add]
  case irqen => rintro rfl; exact IrqEn.toNat_toWord s.irqen
  case keylen | mlen | trcnt => rintro rfl; exact BitVec.toNat_setWidth_of_le (by decide)
  case key => rw [targetAt_key hl hk h]; exact getElem?_key_readTarget (by rwa [hkey])
  case traceHi => rw [targetAt_traceHi hj h]; exact getElem?_trace_readTarget_hi (by rwa [htrace])
  case traceLo => rw [targetAt_traceLo hj h]; exact getElem?_trace_readTarget_lo (by rwa [htrace])
  case buf => rw [targetAt_buf ha h]; exact readTarget_buf a
  case reserved => rw [targetAt_reserved hl h4 h]; rfl

/-! ## What a Write does while idle (R182) -/

theorem step_of_write_idle_at {s : State} {off : Nat} {v : Word} {rest : List Event} {t : Target}
    (hq : s.inputs = .write off v :: rest) (hb : s.status.busy = false) (ho : off < Config.aperture)
    (ht : targetAt s.params (wordOffset off) = t) : step s = .next ((s.withInputs rest).writeTarget t v) :=
  ht ▸ step_of_write_idle hq hb ho

/-- CFG takes its three fields from a written word (R25). -/
theorem CfgReg.ofWord_eq (v : Word) :
    CfgReg.ofWord v =
      { rounds := v.extractLsb' 0 8, var := if v.getLsbD 8 then .xorHalf else .identity,
        opsel := if v.getLsbD 9 then .left else .right } := by
  unfold CfgReg.ofWord
  cases v.getLsbD 8 <;> cases v.getLsbD 9 <;> rfl

/-- Settles O48: the map says what the word at the offset is, and an idle Write is carried out on that register. -/
theorem writeWhileIdle : Obligations.WriteWhileIdle := by
  intro s off v rest hs hq hb ho w q
  obtain ⟨hl, hkey, -, ⟨hwf, -⟩, -⟩ := hs
  have h4 : w % 4 = 0 := wordOffset_mod off
  have carried : ∀ t, targetAt s.params w = t → step s = .next (q.writeTarget t v) :=
    fun t => step_of_write_idle_at hq hb ho
  have unchanged : (targetAt s.params w).isReadOnly = true → step s = .next q := step_of_write_readOnly hq ho
  clear_value w
  refine ⟨?cfg, ?cmd, ?status, ?irqen, ?keylen, ?mlen, ?blk0, ?blk1, fun k hk h => ?key, fun a ha h => ?buf,
    fun h => unchanged (targetAt_isReadOnly hl h4 h)⟩
  case cfg => rintro rfl; rw [← CfgReg.ofWord_eq]; exact carried .cfg rfl
  case cmd => rintro rfl; exact carried .cmd rfl
  case status => rintro rfl; rw [← Status.clear_eq]; exact carried .status rfl
  case irqen => rintro rfl; exact carried .irqen rfl
  case keylen => rintro rfl; exact carried .keylen rfl
  case mlen => rintro rfl; exact carried .mlen rfl
  case blk0 => rintro rfl; exact carried .blk0 rfl
  case blk1 => rintro rfl; exact carried .blk1 rfl
  case key =>
    have hlen : k < s.key.length := by rwa [hkey]
    refine ⟨s.key.set k v, carried (.key k) (targetAt_key hl hk h), List.length_set, fun j _ => ?_⟩
    rw [List.getElem?_set, if_pos hlen]
    exact if_congr eq_comm rfl rfl
  case buf =>
    obtain ⟨-, hbytes, hothers, -⟩ := memoryPrimitives s.buf a 4 v hwf
    exact ⟨s.buf.memWrite a 4 v, carried (.buf a) (targetAt_buf ha h), hbytes 0 (by decide), hbytes 1 (by decide),
      hbytes 2 (by decide), hbytes 3 (by decide), hothers⟩

/-! ## Who configures the engine (R182) -/

theorem params_unmovedByErrors : UnmovedByErrors State.params := ⟨by simp, by simp, by simp⟩

theorem configuration_unmovedByErrors : UnmovedByErrors fun s => (s.cfg, s.irqen, s.keylen, s.key) :=
  ⟨by simp, by simp, by simp⟩

theorem hostWrite_params (s : State) (off : Nat) (v : Word) : (s.hostWrite off v).params = s.params := by
  obtain ⟨-, hw⟩ | ⟨-, -, hw⟩ | ⟨-, hw⟩ | ⟨-, -, -, -, hparams, -⟩ := hostWrite_cases s off v
  · rw [hw]
  · rw [hw]; rfl
  · rw [hw]
  · exact hparams

/-- No step changes the parameters (R6). -/
theorem step_params {s t : State} (h : step s = .next t) : t.params = s.params := by
  by_contra hne
  obtain ⟨rest, i, -, -, -, -, rfl⟩ | ⟨off, v, rest, -, rfl⟩ | ⟨u, rest, -, rfl⟩ :=
    step_next_of_changed params_unmovedByErrors h hne
  · exact hne (effect_frame i (s.withInputs rest)).1
  · exact hne (hostWrite_params (s.withInputs rest) off v)
  · exact hne rfl

/-- Settles O44: of the three ways to change a register the command's is excluded, since no effect writes the
configuration. -/
theorem onlyTheHostConfigures : Obligations.OnlyTheHostConfigures := by
  intro s t h
  refine ⟨step_params h, fun hne => ?_⟩
  obtain ⟨rest, i, -, -, -, -, rfl⟩ | ⟨off, v, rest, hq, -⟩ | ⟨u, rest, hq, -⟩ :=
    step_next_of_changed configuration_unmovedByErrors h (by simpa [Prod.ext_iff, imp_iff_not_or] using hne)
  · obtain ⟨-, hcfg, hirqen, hkeylen, hkey, -⟩ := effect_frame i (s.withInputs rest)
    simp [hcfg, hirqen, hkeylen, hkey] at hne
  · exact .inl ⟨off, v, rest, hq⟩
  · exact .inr ⟨u, rest, hq⟩

/-! ## NOP (R180) -/

/-- Settles O11: NOP has no check to fail and touches no byte of BUF, and its effect is the state as it was. -/
theorem nopCompletesWithNoEffect : Obligations.NopCompletesWithNoEffect :=
  fun s => (exec_eq_runCommand .nop s).trans (runCommand_none (Nat.zero_le _))

end Sys2Proof.Machine
end

section
/-! SUPPORT. Completion and exceptions (spec/60_exceptions.md): the engine's turn, which check of R203 a command fails,
what an error changes, how long an accepted command can be in flight, and the interrupt output. -/

namespace Sys2Proof.Machine

/-! ## The engine's turn (R200, R201, R215) -/

section
variable {s t : State} {rest : List Event}

theorem step_of_engineNext_idle (hn : s.EngineNext rest) (hb : s.status.busy = false) :
    step s = .next (s.withInputs rest) := by
  rw [step_of_engineNext hn]
  exact if_neg (by simp [hb])

theorem step_of_engineNext_busy (hn : s.EngineNext rest) (hb : s.status.busy = true) :
    step s = runDecoded (decode s.curcmd) (s.withInputs rest) := by
  rw [step_of_engineNext hn]
  exact if_pos hb

/-- Both completions clear BUSY. -/
theorem exec_busy {i : Instr} (h : exec i s = .next t) : t.status.busy = false := by
  obtain ⟨e, -, rfl⟩ | ⟨-, -, rfl⟩ := exec_next h <;> rfl

theorem runDecoded_busy {d : Except DecodeError Instr} (h : runDecoded d s = .next t) : t.status.busy = false := by
  cases d with
  | ok i => exact exec_busy h
  | error e => cases h; rfl

/-- The engine is idle after its turn, whether it had a command to complete or not. -/
theorem busy_of_engineNext (hn : s.EngineNext rest) (h : step s = .next t) : t.status.busy = false := by
  cases hb : s.status.busy with
  | false =>
    rw [step_of_engineNext_idle hn hb] at h
    cases h
    exact hb
  | true =>
    rw [step_of_engineNext_busy hn hb] at h
    exact runDecoded_busy h

end

/-- Settles O5: the engine's turn on a busy engine runs what the decoder says. -/
theorem stepRunsTheDecodedCommand : Obligations.StepRunsTheDecodedCommand := by
  intro s rest i hn hb hd
  rw [step_of_engineNext_busy hn hb, hd]
  rfl

/-- Settles O6: what the decoder rejects completes with ILLCMD. -/
theorem illegalWordCompletesWithIllcmd : Obligations.IllegalWordCompletesWithIllcmd := by
  refine ⟨rfl, fun s rest e hn hb hd => ?_⟩
  rw [step_of_engineNext_busy hn hb, hd]
  rfl

/-- Settles O57: the engine's turn on an idle engine only takes that turn off the queue. -/
theorem anIdleEngineHoldsItsState : Obligations.AnIdleEngineHoldsItsState :=
  fun _ _ => step_of_engineNext_idle

/-! ## The codes and the conditions of R203, in the order of R204 -/

theorem ErrCode.toNat_toBits_le (e : ErrCode) : e.toBits.toNat ≤ 5 := by cases e <;> decide

/-- Settles O8: the codes are those of the table. -/
theorem errorCodesAreOneToFive : Obligations.ErrorCodesAreOneToFive :=
  ⟨rfl, rfl, rfl, rfl, rfl, rfl, ErrCode.toNat_toBits_le⟩

section
variable {i : Instr} {s : State} {e : ErrCode}

theorem overflowError_of_not_paddedFits (h : ¬ s.PaddedFits) : s.overflowError = some .overflow :=
  if_pos (Nat.lt_of_not_le h)

/-- A check passes exactly when every column of R203 that the command has is in order. -/
theorem commandCheck_eq_none_iff :
    commandCheck i s = none ↔
      (i.usesKey = true → s.KeyLegal) ∧ (i.usesBuffer = true → s.MsgFits) ∧ (i.appendsPad = true → s.PaddedFits) := by
  simp only [commandCheck_eq_columns, Option.or_eq_none_iff, ite_eq_right_iff, keyError_eq_none, mlenError_eq_none,
    overflowError_eq_none]

/-- The key is tested first. -/
theorem commandCheck_of_keyError (hi : i.usesKey = true) (h : s.keyError = some e) : commandCheck i s = some e := by
  rw [commandCheck_eq_columns, if_pos hi, h, Option.some_or]

theorem keyColumn_eq_none (hk : i.usesKey = true → s.KeyLegal) :
    (if i.usesKey then s.keyError else none) = none :=
  ite_eq_right_iff.mpr fun hu => keyError_eq_none.mpr (hk hu)

/-- MLEN is tested once the key, if the command uses one, is legal. -/
theorem commandCheck_of_mlenError (hi : i.usesBuffer = true) (hk : i.usesKey = true → s.KeyLegal)
    (h : s.mlenError = some e) : commandCheck i s = some e := by
  rw [commandCheck_eq_columns, keyColumn_eq_none hk, if_pos hi, h, Option.none_or, Option.some_or]

/-- The room for the pad is tested last. -/
theorem commandCheck_of_overflowError (hi : i.appendsPad = true) (hk : i.usesKey = true → s.KeyLegal)
    (hm : s.MsgFits) (h : s.overflowError = some e) : commandCheck i s = some e := by
  rw [commandCheck_eq_columns, keyColumn_eq_none hk, mlenError_eq_none.mpr hm, ite_self, if_pos hi, h,
    Option.none_or, Option.none_or]

end

theorem commandEffect_errcode (i : Instr) (s : State) : (commandEffect i s).status.errcode = s.status.errcode := by
  obtain ⟨p, hst⟩ := commandEffect_status i s
  rw [hst]

/-- Settles O7: the first check of the command that fails gives the code, and when none fails the command completes
without error. -/
theorem errorConditionsInPriorityOrder : Obligations.ErrorConditionsInPriorityOrder := by
  intro i s fails
  refine ⟨fun hi h => ?keyEmpty, fun hi h => ?keyRange, fun hi hk h => ?mlenRange, fun hi hk hm h => ?overflow,
    fun hk hm hp t ht => ?noError⟩
  case keyEmpty => exact exec_of_check_some (commandCheck_of_keyError hi (keyError_of_empty h))
  case keyRange => exact exec_of_check_some (commandCheck_of_keyError hi (keyError_of_range h))
  case mlenRange => exact exec_of_check_some (commandCheck_of_mlenError hi hk (mlenError_of_range h))
  case overflow =>
    exact exec_of_check_some (commandCheck_of_overflowError hi hk hm (overflowError_of_not_paddedFits h))
  case noError =>
    have hpass : commandCheck i s = none := commandCheck_eq_none_iff.mpr ⟨hk, hm, hp⟩
    obtain ⟨e, hfail, -⟩ | ⟨-, -, rfl⟩ := exec_next ht
    · rw [hpass] at hfail
      cases hfail
    · exact ⟨rfl, commandEffect_err i s, commandEffect_errcode i s⟩

/-! ## Errors are precise (R205) -/

/-- A command that ends with ERR set, which was clear before, has failed a check. -/
theorem exec_eq_completeError_of_err {i : Instr} {s t : State} (h : exec i s = .next t) (hs : s.status.err = false)
    (ht : t.status.err = true) : ∃ e, e ≠ .none ∧ t = s.completeError e := by
  obtain ⟨e, hc, rfl⟩ | ⟨-, -, rfl⟩ := exec_next h
  · exact ⟨e, commandCheck_ne_none hc, rfl⟩
  · have herr : (commandEffect i s).status.err = true := ht
    rw [commandEffect_err, hs] at herr
    cases herr

theorem runDecoded_eq_completeError_of_err {d : Except DecodeError Instr} {s t : State}
    (h : runDecoded d s = .next t) (hs : s.status.err = false) (ht : t.status.err = true) :
    ∃ e, e ≠ .none ∧ t = s.completeError e := by
  cases d with
  | ok i => exact exec_eq_completeError_of_err h hs ht
  | error e => cases h; exact ⟨.illCmd, by decide, rfl⟩

/-- Settles O9: an Illegal word and a failed check both end in `State.completeError`, and a command without error leaves
ERR alone. -/
theorem errorsArePrecise : Obligations.ErrorsArePrecise := by
  intro s t rest hn hb hs h ht
  rw [step_of_engineNext_busy hn hb] at h
  obtain ⟨e, he, rfl⟩ := runDecoded_eq_completeError_of_err h hs ht
  exact ⟨he, rfl⟩

/-! ## An accepted command completes (R201, R240) -/

theorem hostWrite_inputs (s : State) (off : Nat) (v : Word) : (s.hostWrite off v).inputs = s.inputs := by
  unfold State.hostWrite
  dsimp only
  split
  · rfl
  · cases targetAt s.params (wordOffset off) <;> rfl

theorem tail_inputs_of_engineNext {s : State} {rest : List Event} (h : s.EngineNext rest) : s.inputs.tail = rest := by
  obtain h | ⟨h, rfl⟩ := h <;> rw [h] <;> rfl

/-- Every step takes the first event off the queue. -/
theorem step_inputs {s t : State} (h : step s = .next t) : t.inputs = s.inputs.tail := by
  obtain ⟨rest, hn, -, rfl⟩ | ⟨rest, i, hn, -, -, he⟩ | ⟨rest, e, hn, -, -, rfl⟩ | ⟨off, rest, hq, -, rfl⟩ |
    ⟨off, v, rest, hq, -, rfl⟩ | ⟨u, rest, hq, rfl⟩ := step_next h
  · exact (tail_inputs_of_engineNext hn).symm
  · rw [tail_inputs_of_engineNext hn]
    obtain ⟨e, -, rfl⟩ | ⟨-, -, rfl⟩ := exec_next he
    · rfl
    · obtain ⟨-, -, -, -, -, -, hinputs, -⟩ := effect_frame i (s.withInputs rest)
      exact hinputs
  · exact (tail_inputs_of_engineNext hn).symm
  · rw [hq, State.hostRead_inputs]; rfl
  · rw [hq, hostWrite_inputs]; rfl
  · rw [hq]; rfl

/-- Under the invariant, with the host inside the aperture, the machine never stops (R61, R72). -/
theorem exists_step {s : State} (hs : s.Inv) (ha : s.InAperture) : ∃ t, step s = .next t := by
  cases h : step s with
  | next t => exact ⟨t, rfl⟩
  | fault r => exact absurd h (noStepFaults s r hs)
  | refused r =>
    obtain ⟨off, rest, hoff, -, hq⟩ := (onlyOffsetsOutsideTheApertureAreRefused s r).mp h
    have hin : (Event.read off).inAperture = true := by
      obtain hq | ⟨v, hq⟩ := hq
      · exact ha (.read off) (by simp [hq])
      · exact ha (.write off v) (by simp [hq])
    exact absurd (of_decide_eq_true hin) (Nat.not_lt.mpr hoff)

theorem inAperture_step {s t : State} (h : step s = .next t) (ha : s.InAperture) : t.InAperture := by
  intro e he
  rw [step_inputs h] at he
  exact ha e (List.mem_of_mem_tail he)

theorem run_succ_of_step (M : Host.Core) {s t : M.State} (h : M.step s = .next t) (k : Nat) :
    M.run (k + 1) s = M.run k t := by
  rw [Host.Core.run, h]

/-- One step for every event uses up the queue, and the engine's turn after that ends idle. -/
theorem exists_run_idle (q : List Event) {s : State} (hq : s.inputs = q) (hs : s.Inv) (ha : s.InAperture) :
    ∃ t, Sys2Proof.core.run (q.length + 1) s = .next t ∧ t.status.busy = false := by
  induction q generalizing s with
  | nil =>
    obtain ⟨t, ht⟩ := exists_step hs ha
    exact ⟨t, run_succ_of_step Sys2Proof.core ht 0, busy_of_engineNext (.inr ⟨hq, rfl⟩) ht⟩
  | cons e rest ih =>
    obtain ⟨t, ht⟩ := exists_step hs ha
    have htail : t.inputs = rest := by rw [step_inputs ht, hq]; rfl
    obtain ⟨u, hrun, hidle⟩ := ih htail (everyStepKeepsTheInvariant s t hs ht) (inAperture_step ht ha)
    exact ⟨u, (run_succ_of_step Sys2Proof.core ht _).trans hrun, hidle⟩

/-- Settles O38: the engine is idle at the latest after its turn on the empty queue. -/
theorem anAcceptedCommandCompletesOrIsAbandonedByReset :
    Obligations.AnAcceptedCommandCompletesOrIsAbandonedByReset :=
  fun s hs ha _ => ⟨s.inputs.length + 1, Nat.le_refl _, exists_run_idle s.inputs rfl hs ha⟩

/-! ## The interrupt output (R209, R71) -/

theorem irq_eq_true_iff {s : State} :
    s.irq = true ↔
      s.status.done = true ∧ s.irqen.doneie = true ∨ s.status.err = true ∧ s.irqen.errie = true := by
  simp [State.irq]

theorem irq_of_flags_clear {s : State} (hdone : s.status.done = false) (herr : s.status.err = false) :
    s.irq = false := by
  simp [State.irq, hdone, herr]

/-- Neither DONE nor ERR is set while the engine is busy (R27). -/
theorem irq_of_busy {s : State} (hs : s.status.Wf) (hb : s.status.busy = true) : s.irq = false := by
  obtain ⟨-, hbusy, -⟩ := hs
  obtain ⟨hdone, herr⟩ := hbusy hb
  exact irq_of_flags_clear hdone herr

theorem targetAt_irqen {c : Config} {off : Nat} (h : off - off % 4 = 0x014) :
    targetAt c (wordOffset off) = .irqen := by
  rw [show wordOffset off = 0x014 from h]; rfl

/-- `step_of_write_not_input` at a word that is known. -/
theorem step_of_write_not_input_at {s : State} {off : Nat} {v : Word} {rest : List Event} {t : Target}
    (hq : s.inputs = .write off v :: rest) (ho : off < Config.aperture)
    (ht : targetAt s.params (wordOffset off) = t) (hin : t.isInput = false) :
    step s = .next ((s.withInputs rest).writeTarget t v) :=
  ht ▸ step_of_write_not_input hq ho (ht ▸ hin)

section
variable {s : State} {v : Word}

theorem irq_accept : (s.accept v).irq = false := irq_of_flags_clear rfl rfl

/-- Clearing each of DONE and ERR that is set leaves none. -/
theorem irq_writeTarget_status (hd : s.status.done = true → v.getLsbD 1 = true)
    (he : s.status.err = true → v.getLsbD 2 = true) : (s.writeTarget .status v).irq = false := by
  have hdone : (s.status.clear v).done = false := by
    rw [Status.clear_done]
    split
    · rfl
    · next hbit => exact Bool.eq_false_of_not_eq_true (mt hd hbit)
  have herr : (s.status.clear v).err = false := by
    rw [Status.clear_err]
    split
    · rfl
    · next hbit => exact Bool.eq_false_of_not_eq_true (mt he hbit)
  exact irq_of_flags_clear hdone herr

/-- Clearing the enable of each of DONE and ERR that is set leaves no set bit enabled. -/
theorem irq_writeTarget_irqen (hd : s.status.done = true → v.getLsbD 0 = false)
    (he : s.status.err = true → v.getLsbD 1 = false) : (s.writeTarget .irqen v).irq = false := by
  rw [← Bool.not_eq_true, irq_eq_true_iff]
  rintro (⟨hdone, henable⟩ | ⟨herr, henable⟩)
  · exact Bool.false_ne_true ((hd hdone).symm.trans henable)
  · exact Bool.false_ne_true ((he herr).symm.trans henable)

end

/-- Settles O56: a busy engine has nothing to report, and after each of the three writes no set bit is enabled. -/
theorem interruptLevel : Obligations.InterruptLevel := by
  intro s
  refine ⟨irq_eq_true_iff, fun ⟨_, _, _, _, hst⟩ hirq => ⟨?_, hst.1⟩, fun off v rest hq hwrite => ?_⟩
  · by_contra hb
    rw [irq_of_busy hst (by simpa using hb)] at hirq
    cases hirq
  · obtain ⟨hoff, hb⟩ | ⟨hoff, hdone, herr⟩ | ⟨hoff, hdone, herr⟩ := hwrite
    · exact ⟨_, step_of_write_idle_at hq hb (lt_aperture hoff (by decide)) (targetAt_cmd hoff), irq_accept⟩
    · exact ⟨_, step_of_write_not_input_at hq (lt_aperture hoff (by decide)) (targetAt_status hoff) rfl,
        irq_writeTarget_status hdone herr⟩
    · exact ⟨_, step_of_write_not_input_at hq (lt_aperture hoff (by decide)) (targetAt_irqen hoff) rfl,
        irq_writeTarget_irqen hdone herr⟩

end Sys2Proof.Machine
end

section
/-! SUPPORT. Reset (spec/70_reset_and_hazards.md R230, R231): the registers that it leaves in every state. -/

namespace Sys2Proof.Machine

/-- Reset clears DONE and ERR, whatever the engine was doing. -/
theorem irq_assertReset (s : State) (u : Unspecified) : (s.assertReset u).irq = false :=
  irq_of_flags_clear rfl rfl

/-- Settles O58: a reset event is taken in every state, idle or busy, and the laws of `State.assertReset` give each
register; BUSY is among them, so a command in flight is abandoned. -/
theorem resetLeavesTheseValues : Obligations.ResetLeavesTheseValues := by
  intro s u rest hq
  refine ⟨_, step_of_reset hq, ?_⟩
  simp [Status.idle, irq_assertReset]

end Sys2Proof.Machine
end
